-- ==== Sys2Proof/Word.lean ====
section
/-! DEFINITION. The widths of the values of `spec/00_scope.md` R7, R8, R11 and `spec/10_state.md` R22, R29. -/

namespace Sys2Proof

/-- One byte. -/
abbrev Byte := BitVec 8

/-- A guest virtual address, `VA_BITS` = 32 (R8, R50). -/
abbrev VA := BitVec 32

/-- A physical address on the widest port, `PA_BITS` <= 32 (R8, R51). -/
abbrev PA := BitVec 32

/-- A physical page frame on the widest port, `TAG_BITS` = `PA_BITS` - 12 <= 20 (R11, R22). -/
abbrev Pfn := BitVec 20

/-- A set number, address bits [11:6] (R11, R53). -/
abbrev SetIx := BitVec 6

/-- A line offset, address bits [5:0] (R11). -/
abbrev LineOff := BitVec 6

/-- A way number, 0 or 1 (R7). -/
abbrev Way := Fin 2

/-- One line of the data array: 64 bytes (R29). -/
abbrev Line := Vector Byte 64

end Sys2Proof
end

