-- ==== Sys2Proof/Config.lean ====
section
/-! DEFINITION. What an implementation fixes (`spec/00_scope.md` R7, R8) and the model's one free value. -/

namespace Sys2Proof

/-- What a write-back does when its target is no longer plain RAM (`spec/41_lookup_fill.md` R123). -/
inductive WbPolicy where
  | refuse   -- the whole request is refused; the default
  | drop     -- the write to PM is skipped and the fill proceeds
  deriving DecidableEq, Repr

/-- The named parameters of R8, R88 and R123. No step writes them (log 9). -/
structure Params where
  /-- `PA_BITS`, the width of a physical address. -/
  paBits : Nat
  /-- Bit positions of the four named flags in the flag field (R88). -/
  posDirty : Fin 6
  posValid : Fin 6
  posLrf   : Fin 6
  posLock  : Fin 6
  wbPolicy : WbPolicy
  deriving DecidableEq, Repr

/-- The defaults of R8, R88, R123. -/
def Params.default : Params :=
  { paBits := 32, posDirty := 5, posValid := 4, posLrf := 3, posLock := 2, wbPolicy := .refuse }

/-- The bounds R8 and R88 put on the parameters: 13 <= `PA_BITS` <= 32, four distinct positions. -/
abbrev Params.wf (p : Params) : Prop :=
  13 ≤ p.paBits ∧ p.paBits ≤ 32 ∧ [p.posDirty, p.posValid, p.posLrf, p.posLock].Nodup

/-- FREE VALUE (log 7): what `DATA[s][w]` holds after the RESET operation. R38 and R150 leave it
unspecified, so it has no body: no proof can tell what it is. -/
opaque Config.lineAfterReset : SetIx → Way → Line

end Sys2Proof
end

