-- ==== Sys2Proof/Syntax.lean ====
section
/-! DEFINITION. Requests (`spec/30_encoding.md` R81) and the ten operations of `spec/opcode_table.json`. -/

namespace Sys2Proof

/-- A request as it stands on the request port: the five fields of R81, undecoded. -/
structure Request where
  op        : BitVec 4
  staticCtx : Bool
  va        : VA
  pfn       : Pfn
  wdata     : BitVec 128
  deriving DecidableEq, Repr

/-- The ten request operations (R84), with the operands R86 assembles from the request: the static
context bit, the virtual address, the page frame and, for a write, the low W bits of `wdata`. -/
inductive Instr where
  | rd8   (ctx : Bool) (va : VA) (pfn : Pfn)
  | rd16  (ctx : Bool) (va : VA) (pfn : Pfn)
  | rd32  (ctx : Bool) (va : VA) (pfn : Pfn)
  | rd64  (ctx : Bool) (va : VA) (pfn : Pfn)
  | rd128 (ctx : Bool) (va : VA) (pfn : Pfn)
  | wr8   (ctx : Bool) (va : VA) (pfn : Pfn) (v : BitVec 8)
  | wr16  (ctx : Bool) (va : VA) (pfn : Pfn) (v : BitVec 16)
  | wr32  (ctx : Bool) (va : VA) (pfn : Pfn) (v : BitVec 32)
  | wr64  (ctx : Bool) (va : VA) (pfn : Pfn) (v : BitVec 64)
  | wr128 (ctx : Bool) (va : VA) (pfn : Pfn) (v : BitVec 128)
  deriving DecidableEq, Repr

/-- The `static_ctx` bit an operation carries (R32). -/
def Instr.staticCtx : Instr → Bool
  | .rd8 c _ _ => c
  | .rd16 c _ _ => c
  | .rd32 c _ _ => c
  | .rd64 c _ _ => c
  | .rd128 c _ _ => c
  | .wr8 c _ _ _ => c
  | .wr16 c _ _ _ => c
  | .wr32 c _ _ _ => c
  | .wr64 c _ _ _ => c
  | .wr128 c _ _ _ => c

/-- The virtual address of the access. -/
def Instr.va : Instr → VA
  | .rd8 _ a _ => a
  | .rd16 _ a _ => a
  | .rd32 _ a _ => a
  | .rd64 _ a _ => a
  | .rd128 _ a _ => a
  | .wr8 _ a _ _ => a
  | .wr16 _ a _ _ => a
  | .wr32 _ a _ _ => a
  | .wr64 _ a _ _ => a
  | .wr128 _ a _ _ => a

/-- The page frame the environment's lookup gave. -/
def Instr.pfn : Instr → Pfn
  | .rd8 _ _ p => p
  | .rd16 _ _ p => p
  | .rd32 _ _ p => p
  | .rd64 _ _ p => p
  | .rd128 _ _ p => p
  | .wr8 _ _ p _ => p
  | .wr16 _ _ p _ => p
  | .wr32 _ _ p _ => p
  | .wr64 _ _ p _ => p
  | .wr128 _ _ p _ => p

/-- The number `n` of bytes an operation moves (R82, R84). -/
def Instr.bytes : Instr → Nat
  | .rd8 _ _ _ => 1
  | .rd16 _ _ _ => 2
  | .rd32 _ _ _ => 4
  | .rd64 _ _ _ => 8
  | .rd128 _ _ _ => 16
  | .wr8 _ _ _ _ => 1
  | .wr16 _ _ _ _ => 2
  | .wr32 _ _ _ _ => 4
  | .wr64 _ _ _ _ => 8
  | .wr128 _ _ _ _ => 16

/-- Is the direction bit 1 (R82)? -/
def Instr.isWrite : Instr → Bool
  | .rd8 _ _ _ => false
  | .rd16 _ _ _ => false
  | .rd32 _ _ _ => false
  | .rd64 _ _ _ => false
  | .rd128 _ _ _ => false
  | .wr8 _ _ _ _ => true
  | .wr16 _ _ _ _ => true
  | .wr32 _ _ _ _ => true
  | .wr64 _ _ _ _ => true
  | .wr128 _ _ _ _ => true

/-- The pseudo-operation EVICT2 of R94: two byte reads, to be used where both pass the filter and
name two different lines of one set, neither of them resident. -/
def evict2 (vaA : VA) (pfnA : Pfn) (vaB : VA) (pfnB : Pfn) : List Instr :=
  [.rd8 false vaA pfnA, .rd8 false vaB pfnB]

end Sys2Proof
end

