-- ==== Sys2Proof/WellFormed.lean ====
section
/-! DEFINITION. Which operations an environment that keeps `spec/70_reset_and_hazards.md` R183 presents, as
far as the operation alone shows it. -/

namespace Sys2Proof

/-- Natural alignment (`spec/20_memory.md` R57): `va mod n = 0`. -/
def Instr.aligned (i : Instr) : Bool := i.va.toNat % i.bytes == 0

/-- The page frame fits the `TAG_BITS` = `PA_BITS` - 12 wires of the port (R81). -/
def Instr.pfnFits (p : Params) (i : Instr) : Bool := i.pfn.toNat < 2 ^ (p.paBits - 12)

/-- A well-formed operation: aligned, with a page frame of the port's width. -/
def Instr.wellFormed (p : Params) (i : Instr) : Bool := i.aligned && i.pfnFits p

end Sys2Proof
end

