-- ==== Sys2Proof/Decode.lean ====
section
/-! DEFINITION. Decoding of requests and its inverse (`spec/30_encoding.md` R81 to R87). -/

namespace Sys2Proof

/-- Why a request has no operation. -/
inductive DecodeError where
  /-- `op[2:0]` is 5, 6 or 7 (R85). -/
  | reservedOp
  deriving DecidableEq, Repr

/-- Decode a request (R82, R84): the operation map, each operand assembled as R86 says. Total on every
request; the six codes of R85 are rejected by name. -/
def decode (r : Request) : Except DecodeError Instr :=
  if r.op = 0b0000#4 then .ok (.rd8 r.staticCtx r.va r.pfn)
  else if r.op = 0b0001#4 then .ok (.rd16 r.staticCtx r.va r.pfn)
  else if r.op = 0b0010#4 then .ok (.rd32 r.staticCtx r.va r.pfn)
  else if r.op = 0b0011#4 then .ok (.rd64 r.staticCtx r.va r.pfn)
  else if r.op = 0b0100#4 then .ok (.rd128 r.staticCtx r.va r.pfn)
  else if r.op = 0b1000#4 then .ok (.wr8 r.staticCtx r.va r.pfn (r.wdata.extractLsb' 0 8))
  else if r.op = 0b1001#4 then .ok (.wr16 r.staticCtx r.va r.pfn (r.wdata.extractLsb' 0 16))
  else if r.op = 0b1010#4 then .ok (.wr32 r.staticCtx r.va r.pfn (r.wdata.extractLsb' 0 32))
  else if r.op = 0b1011#4 then .ok (.wr64 r.staticCtx r.va r.pfn (r.wdata.extractLsb' 0 64))
  else if r.op = 0b1100#4 then .ok (.wr128 r.staticCtx r.va r.pfn r.wdata)
  else .error .reservedOp

/-- The operation code of R84. -/
def opcodeOf : Instr → BitVec 4
  | .rd8 _ _ _ => 0b0000#4
  | .rd16 _ _ _ => 0b0001#4
  | .rd32 _ _ _ => 0b0010#4
  | .rd64 _ _ _ => 0b0011#4
  | .rd128 _ _ _ => 0b0100#4
  | .wr8 _ _ _ _ => 0b1000#4
  | .wr16 _ _ _ _ => 0b1001#4
  | .wr32 _ _ _ _ => 0b1010#4
  | .wr64 _ _ _ _ => 0b1011#4
  | .wr128 _ _ _ _ => 0b1100#4

/-- The value a write puts on `wdata`, its bits above W zero; a read puts zero there (R81, R86). -/
def wdataOf : Instr → BitVec 128
  | .rd8 _ _ _ => 0
  | .rd16 _ _ _ => 0
  | .rd32 _ _ _ => 0
  | .rd64 _ _ _ => 0
  | .rd128 _ _ _ => 0
  | .wr8 _ _ _ v => v.setWidth 128
  | .wr16 _ _ _ v => v.setWidth 128
  | .wr32 _ _ _ v => v.setWidth 128
  | .wr64 _ _ _ v => v.setWidth 128
  | .wr128 _ _ _ v => v

/-- The request that names an operation (R81, R84). -/
def encode (i : Instr) : Request :=
  { op := opcodeOf i, staticCtx := i.staticCtx, va := i.va, pfn := i.pfn, wdata := wdataOf i }

/-! A request is a record and the spec gives its fields no places relative to each other (R81). The
serial form below is the model's own (DESIGN CHOICE, log 2): `op` in bits [3:0], `static_ctx` in bit 4,
`va` in bits [36:5], `pfn` in bits [56:37], `wdata` in bits [184:57]. -/

/-- How many bits the serial form of a request has (log 2). -/
abbrev requestBits : Nat := 185

/-- The serial form of a request (log 2). -/
def Request.toWord (r : Request) : BitVec requestBits :=
  r.wdata ++ r.pfn ++ r.va ++ BitVec.ofBool r.staticCtx ++ r.op

/-- The request a serial form stands for (log 2). -/
def Request.ofWord (w : BitVec requestBits) : Request :=
  { op := w.extractLsb' 0 4, staticCtx := w.getLsbD 4, va := w.extractLsb' 5 32,
    pfn := w.extractLsb' 37 20, wdata := w.extractLsb' 57 128 }

/-- The serial word of an operation (log 2). -/
def encodeWord (i : Instr) : BitVec requestBits := (encode i).toWord

/-- What the decoder reads from a request whose low `nbits` serial bits are `w` and whose other bits
are 0; none where it rejects the request, or where `w` has bits a request does not have. -/
def decodeTableWord (nbits w : Nat) : Option Instr :=
  if w < 2 ^ nbits ∧ w < 2 ^ requestBits then
    match decode (Request.ofWord (BitVec.ofNat requestBits w)) with
    | .ok i => some i
    | .error _ => none
  else none

end Sys2Proof
end

