-- ==== Sys2Proof/Machine/State.lean ====
section
/-! DEFINITION. The machine's state as plain data (`spec/10_state.md`), its value at reset, and the reasons
a step can stop. -/

namespace Sys2Proof.Machine

/-- A tag entry `T[s][w]`: the record of six fields of R22. -/
structure TagEntry where
  /-- The physical tag bits (R23). -/
  pfn   : Pfn
  /-- Written since the fill, PM not updated (R25). -/
  dirty : Bool
  /-- The line holds a copy of the physical line its tag names (R24). -/
  valid : Bool
  /-- "Least recently filled": flipped by a fill of this way, read by victim selection (R26). -/
  lrf   : Bool
  /-- Inert placeholder, never tested (R27). -/
  lock  : Bool
  /-- The two flag-field bits that have no name (R28). -/
  rsv   : BitVec 2
  deriving DecidableEq, Repr

/-- The tag entry RESET leaves (R38, R150; log 6). -/
def TagEntry.empty : TagEntry :=
  { pfn := 0, dirty := false, valid := false, lrf := false, lock := false, rsv := 0 }

/-- A range of virtual addresses, both ends included (R93, `CACHEABLE <lo>..<hi>`). -/
structure VaRange where
  lo : VA
  hi : VA
  deriving DecidableEq, Repr

/-- A software-TLB entry (R31). The spec's `TlbEntry` is opaque, seen through `covers` and `cacheable`
alone; the model's entry is the set of addresses it covers, as ranges, and its cacheable mark, which
realises every such pair of functions (log 11; `exists_entry_covering` in Laws/Filter.lean). -/
structure TlbEntry where
  ranges    : List VaRange
  cacheable : Bool
  deriving DecidableEq, Repr

/-- The entry that covers no address (log 8). -/
def TlbEntry.none : TlbEntry := { ranges := [], cacheable := false }

/-- The backing store `PM` (R34): the bytes that differ from what an unlisted address reads as
(`unlistedByte` in Machine/Memory.lean, log 5), by rising address. -/
abbrev Memory := List Host.Cell

/-- The closed list of reasons of `spec/60_exceptions.md` R166. -/
inductive RefuseReason where
  | reservedOp
  | misaligned
  | writebackUnbacked
  deriving DecidableEq, Repr

/-- The response to a request (`spec/30_encoding.md` R83): `Data(v)` with exactly W bits, `Done`, or
`Refused(reason)`. -/
inductive Response where
  | data8   (v : BitVec 8)
  | data16  (v : BitVec 16)
  | data32  (v : BitVec 32)
  | data64  (v : BitVec 64)
  | data128 (v : BitVec 128)
  | done
  | refused (why : RefuseReason)
  deriving DecidableEq, Repr

/-- What can reach the block beside a request: the control inputs of `spec/44_system.md` R150, R152 and
the actions of the environment between two requests (R154; `spec/30_encoding.md` R93;
`spec/41_lookup_fill.md` R123; `spec/70_reset_and_hazards.md` R192). -/
inductive Control where
  /-- RESET (R150). -/
  | reset
  /-- `Init`, which for the block is RESET (R152). -/
  | init
  /-- `Shutdown` (R152). -/
  | shutdown
  /-- The directive `ENABLE` (R93). -/
  | setCacheEnable (on : Bool)
  /-- A change of one entry `TLB[i]` (R154). -/
  | setTlb (i : Fin 48) (e : TlbEntry)
  /-- The directive `CACHEABLE` (R93). -/
  | setCacheable (ranges : List VaRange)
  /-- Another agent writes bytes of PM (R70, R93). -/
  | writePm (a : PA) (bytes : List Byte)
  /-- A physical page becomes, or ceases to be, plain RAM (R123). -/
  | setBacked (pfn : Pfn) (ram : Bool)
  /-- A save state is loaded (R192; log 22). -/
  | loadState (image : List Host.Cell)
  deriving DecidableEq, Repr

/-- One entry of the arrival order (R155). -/
inductive Input where
  | request (r : Request)
  | control (c : Control)
  deriving DecidableEq, Repr

/-- The machine: the block's two arrays (R20), the inputs of its step (R13, R30 to R34), its ports and
its parameters. -/
structure State where
  /-- `T[s][w]` (R22). -/
  tags        : Vector (Vector TagEntry 2) 64
  /-- `DATA[s][w]` (R29). -/
  data        : Vector (Vector Line 2) 64
  /-- `PM` (R34). -/
  pm          : Memory
  /-- `cache_enable` (R30). -/
  cacheEnable : Bool
  /-- `TLB[0..47]` (R31). -/
  tlb         : Vector TlbEntry 48
  /-- The page frames that are not plain RAM now, rising: `backed(pa)` is false exactly on them (R123). -/
  unbacked    : List Nat
  /-- What is still to be served, in arrival order (R155; log 1). -/
  inputs      : List Input
  /-- The response to the latest request served (R83; log 24). -/
  response    : Option Response
  /-- The block exists: initialised and not shut down (R152; log 18). -/
  running     : Bool
  /-- The parameters of R8, R88, R123; no step writes them (log 9). -/
  params      : Params
  deriving DecidableEq, Repr

/-- The machine right after reset (R38): both arrays empty. The values the spec does not give are named
in the log: the data array (log 7), PM (log 5), the filter's inputs (log 8), the ports (log 1, log 24),
the parameters (log 9). -/
def State.reset : State :=
  { tags := Vector.replicate 64 (Vector.replicate 2 TagEntry.empty)
    data := Vector.replicate 64 (Vector.replicate 2 (Vector.replicate 64 0#8))
    pm := []
    cacheEnable := false
    tlb := Vector.replicate 48 TlbEntry.none
    unbacked := []
    inputs := []
    response := none
    running := true
    params := Params.default }

/-- Why the machine stops with a fault. The block itself raises no exception
(`spec/60_exceptions.md` R160); these are the environment's errors. -/
inductive Fault where
  /-- Raised by `execWritePm` and `execLoadState` when the environment writes beyond the physical
  address space (R34). Safe: the model stops (log 23). -/
  | outsideMemory
  /-- Raised by the step when a request reaches a block that was shut down (R152).
  Safe: the model stops (log 18). -/
  | afterShutdown
  deriving DecidableEq, Repr

/-- Why an operation is given no meaning. The first three are the refusals of R166: the step answers
them with `Refused(reason)` and goes on (log 3). -/
inductive Refusal where
  /-- Raised by the decoder's caller for `op[2:0]` 5, 6 or 7 (R85). Safe: nothing changes. -/
  | reservedOp
  /-- Raised by every operation when `va mod n` is not 0 (R57). Safe: nothing changes. -/
  | misaligned
  /-- Raised by a miss that must write back a dirty line to a page that is not plain RAM, under the
  policy `refuse` (R123). Safe: nothing changes. -/
  | writebackUnbacked
  /-- Raised by every operation whose own page is not plain RAM: the premise of R81 is broken and
  `spec/93_implementation_defined.md` V7 says to refuse. Safe: the model stops (log 4). -/
  | pageNotRam
  /-- Raised by the dispatch for an operation that has no meaning yet. Safe: the model stops. -/
  | notModelled (mnemonic : String)
  deriving DecidableEq, Repr

end Sys2Proof.Machine
end

