-- ==== Sys2Proof/Machine/Filter.lean ====
section
/-! DEFINITION. The coherency filter (`spec/40_filter.md`). -/

namespace Sys2Proof.Machine

/-- Is the address in the range, ends included? -/
def VaRange.holds (r : VaRange) (va : VA) : Bool := r.lo ≤ va && va ≤ r.hi

/-- `covers(entry, va)` (R31). -/
def TlbEntry.covers (e : TlbEntry) (va : VA) : Bool := e.ranges.any fun r => r.holds va

/-- `tlb_cacheable(va)`: some of the 48 entries covers the address and marks it cacheable (R102). -/
def tlbCacheable (tlb : Vector TlbEntry 48) (va : VA) : Bool :=
  tlb.toList.any fun e => e.covers va && e.cacheable

/-- `CheckCache(static_ctx, va)` (R100): all three conditions. -/
def State.checkCache (s : State) (ctx : Bool) (va : VA) : Bool :=
  !ctx && s.cacheEnable && tlbCacheable s.tlb va

/-- `backed(pa)`: the physical page is plain RAM now (R123). -/
def State.backed (s : State) (pfn : Pfn) : Bool := !s.unbacked.contains pfn.toNat

end Sys2Proof.Machine
end

