-- ==== Sys2Proof/Machine/Operands.lean ====
section
/-! DEFINITION. The fields of an address (`spec/00_scope.md` R11), the physical address of a request
(`spec/20_memory.md` R51), natural alignment (R57) and the bytes of a value (R55). -/

namespace Sys2Proof.Machine

/-- The page frame on a port of `TAG_BITS` = `PA_BITS` - 12 wires: higher bits do not exist (R81, log 10). -/
def clipPfn (p : Params) (pfn : Pfn) : Pfn := (pfn.setWidth (p.paBits - 12)).setWidth 20

/-- The physical address of an access, `pa = pfn ++ va[11:0]` (R51, R81). -/
def physAddr (p : Params) (pfn : Pfn) (va : VA) : PA := clipPfn p pfn ++ va.extractLsb' 0 12

/-- `pfn(pa) = pa[PA_BITS-1:12]` (R11). -/
def pfnOf (pa : PA) : Pfn := pa.extractLsb' 12 20

/-- `set(pa) = pa[11:6]` (R11). -/
def setOf (pa : PA) : SetIx := pa.extractLsb' 6 6

/-- `off(pa) = pa[5:0]` (R11). -/
def offOf (pa : PA) : LineOff := pa.extractLsb' 0 6

/-- `linebase(pa) = pa & ~0x3F` (R11). -/
def lineBase (pa : PA) : PA := pa &&& ~~~0x3F#32

/-- The line address `pfn ++ s ++ 0b000000` of a way (R90, R115). -/
def lineAddr (pfn : Pfn) (set : SetIx) : PA := pfn ++ set ++ 0#6

/-- Natural alignment, `va mod n = 0` (R57). -/
def alignedTo (n : Nat) (va : VA) : Bool := va.toNat % n == 0

/-- The number whose little-endian bytes are `bs`: the sum of `b[i] << (8*i)` (R55). -/
def leNat : List Byte → Nat
  | [] => 0
  | b :: bs => b.toNat + 256 * leNat bs

/-- `le_n(b)`, a value of `8n` bits (R10, R55). -/
def leValue (n : Nat) (bs : List Byte) : BitVec (8 * n) := BitVec.ofNat (8 * n) (leNat bs)

/-- `bytes_n(v)`: `b[i] = v[8i+7:8i]` (R10, R55). -/
def leBytes (n : Nat) (v : BitVec (8 * n)) : List Byte :=
  (List.range n).map fun i => v.extractLsb' (8 * i) 8

end Sys2Proof.Machine
end

