-- ==== Sys2Proof/Machine/Flags.lean ====
section
/-! DEFINITION. The per-line flags: victim selection, the updates of a fill and of a write, and the packed
tag word (`spec/41_lookup_fill.md` R111, R113, R117, R118, R120; `spec/30_encoding.md` R88 to R90). -/

namespace Sys2Proof.Machine

/-- Victim selection, `LRF0 xor LRF1` as a way number (R113). -/
def victimOf (lrf0 lrf1 : Bool) : Way := if lrf0 ^^ lrf1 then 1 else 0

/-- The other way of a set. -/
def otherWay (w : Way) : Way := 1 - w

/-- Does the entry answer a probe for page frame `ppf`: VALID and equal address bits (R111, R112)? -/
def TagEntry.answers (e : TagEntry) (ppf : Pfn) : Bool := e.valid && e.pfn == ppf

/-- Must the entry's line be written back when it is replaced: DIRTY and VALID (R115)? -/
def TagEntry.needsWriteBack (e : TagEntry) : Bool := e.dirty && e.valid

/-- The tag and flag update of a fill: the new page frame, VALID 1, DIRTY 0, LRF flipped, LOCK and the
reserved bits kept (R117, R118). -/
def TagEntry.filled (e : TagEntry) (ppf : Pfn) : TagEntry :=
  { e with pfn := ppf, valid := true, dirty := false, lrf := !e.lrf }

/-- The flag update of a write served by the cache: DIRTY 1 (R120). -/
def TagEntry.written (e : TagEntry) : TagEntry := { e with dirty := true }

/-- One bit of the flag field at a position. -/
def flagAt (pos : Nat) (b : Bool) : BitVec 6 := if b then 1#6 <<< pos else 0#6

/-- The positions of the flag field that no named flag takes, rising (R88). -/
def sparePositions (p : Params) : List Nat :=
  (List.range 6).filter fun i =>
    !(i == p.posDirty.val || i == p.posValid.val || i == p.posLrf.val || i == p.posLock.val)

/-- The position of reserved bit `k`: the lower reserved bit has the lower position (R88). -/
def posRsv (p : Params) (k : Nat) : Nat := (sparePositions p).getD k 0

/-- The flag field `F[5:0]` (R88). -/
def flagField (p : Params) (e : TagEntry) : BitVec 6 :=
  flagAt p.posDirty e.dirty ||| flagAt p.posValid e.valid ||| flagAt p.posLrf e.lrf |||
    flagAt p.posLock e.lock ||| flagAt (posRsv p 0) (e.rsv.getLsbD 0) |||
    flagAt (posRsv p 1) (e.rsv.getLsbD 1)

/-- The packed tag word `pfn ++ 0b000000 ++ F` (R88). -/
def tagWord (p : Params) (e : TagEntry) : BitVec 32 := e.pfn ++ 0#6 ++ flagField p e

/-- The tag entry a packed word stands for: the way back through R88. -/
def unpackTag (p : Params) (w : BitVec 32) : TagEntry :=
  { pfn := w.extractLsb' 12 20
    dirty := w.getLsbD p.posDirty
    valid := w.getLsbD p.posValid
    lrf := w.getLsbD p.posLrf
    lock := w.getLsbD p.posLock
    rsv := BitVec.ofBool (w.getLsbD (posRsv p 1)) ++ BitVec.ofBool (w.getLsbD (posRsv p 0)) }

/-- The write-back target as the source writes it, `(tag & ~flagbits) | (set << 6)` (R90). -/
def targetOfWord (w : BitVec 32) (set : SetIx) : PA :=
  (w &&& ~~~0x3F#32) ||| (set.setWidth 32 <<< 6)

end Sys2Proof.Machine
end

