-- ==== Sys2Proof/Machine/Memory.lean ====
section
/-! DEFINITION. The backing store `PM`: one byte, `MemRead` and `MemWrite` (`spec/00_scope.md` R10,
`spec/10_state.md` R34), and the list of page frames that are not plain RAM. -/

namespace Sys2Proof.Machine

/-- What an unlisted address of PM reads as (log 5). -/
def unlistedByte : Byte := 0#8

/-- The canonical form: addresses strictly rising, no entry equal to what an unlisted address reads as. -/
abbrev Memory.wf (m : Memory) : Prop :=
  m.Pairwise (fun c d => c.1 < d.1) ∧ ∀ c ∈ m, c.2 ≠ unlistedByte

/-- Every listed address lies below `bound`. -/
abbrev Memory.below (bound : Nat) (m : Memory) : Prop := ∀ c ∈ m, c.1 < bound

/-- `PM[a]` (R10). -/
def Memory.read (m : Memory) (a : Nat) : Byte :=
  match m.find? (fun c => c.1 == a) with
  | some c => c.2
  | none => unlistedByte

/-- The entry a byte needs: none for the byte an unlisted address reads as. -/
def Memory.cell (a : Nat) (b : Byte) : Memory := if b = unlistedByte then [] else [(a, b)]

/-- `PM[a] <- b` (R10), keeping the canonical form. -/
def Memory.write (m : Memory) (a : Nat) (b : Byte) : Memory :=
  m.filter (fun c => c.1 < a) ++ (Memory.cell a b ++ m.filter (fun c => a < c.1))

/-- `MemRead(a, n)`: the `n` bytes at `a`, `a + 1`, ... (R10). -/
def Memory.readBytes (m : Memory) (a n : Nat) : List Byte :=
  (List.range n).map fun i => m.read (a + i)

/-- `MemWrite(a, n, b)` (R10): one atomic action, the bytes in a row (R60). -/
def Memory.writeBytes (m : Memory) (a : Nat) : List Byte → Memory
  | [] => m
  | b :: bs => Memory.writeBytes (m.write a b) (a + 1) bs

/-- `MemRead(a, 64)` as a line (R116). -/
def Memory.readLine (m : Memory) (a : Nat) : Line := Vector.ofFn fun i => m.read (a + i.val)

/-- `MemWrite(a, 64, line)` (R115). -/
def Memory.writeLine (m : Memory) (a : Nat) (l : Line) : Memory := m.writeBytes a l.toList

/-- What whatever goes round the block sees of the `n` bytes at a physical address: instruction fetch
(`spec/20_memory.md` R76), a debugger peek (`spec/60_exceptions.md` R173), a fastmem access (R163), another
bus master. It reads PM and nothing of the cache (log 21). Beyond the physical address space there is no byte
of PM (R34): DESIGN CHOICE (log 23), such a peek has no answer. -/
def State.peek (s : State) (a : PA) (n : Nat) : Option (List Byte) :=
  if a.toNat + n ≤ 2 ^ s.params.paBits then some (s.pm.readBytes a.toNat n) else none

/-- A memory from a save state's image (R192; log 22). -/
def Memory.ofImage : List Host.Cell → Memory
  | [] => []
  | c :: cs => (Memory.ofImage cs).write c.1 c.2

/-- The list of page frames with one of them out (plain RAM again). -/
def pagesErase (ps : List Nat) (k : Nat) : List Nat := ps.filter fun j => j != k

/-- The list of page frames with one of them in (no longer plain RAM), still rising. -/
def pagesInsert (ps : List Nat) (k : Nat) : List Nat :=
  ps.filter (fun j => j < k) ++ k :: ps.filter (fun j => k < j)

end Sys2Proof.Machine
end

