-- ==== Sys2Proof/Machine/Ops.lean ====
section
/-! DEFINITION. The named operations over the arrays and PM: access to `T` and `DATA`, `findInCache`,
`getFreeCache`, `getLine`, `lineRead`, `lineWrite` (`spec/41_lookup_fill.md`), the common procedures
READ(n) and WRITE(n) (`spec/42_read.md` R130, `spec/43_write.md` R140), RESET of the block
(`spec/44_system.md` R150) and the response port. -/

namespace Sys2Proof.Machine

/-- `T[s][w]` (R10). -/
def State.tag (s : State) (i : SetIx) (w : Way) : TagEntry := (s.tags[i.toNat])[w.val]

/-- `DATA[s][w]` (R10). -/
def State.line (s : State) (i : SetIx) (w : Way) : Line := (s.data[i.toNat])[w.val]

/-- `T[s][w] <- e`. -/
def State.setTag (s : State) (i : SetIx) (w : Way) (e : TagEntry) : State :=
  { s with tags := s.tags.set i.toNat ((s.tags[i.toNat]).set w.val e) }

/-- `DATA[s][w] <- l`. -/
def State.setLine (s : State) (i : SetIx) (w : Way) (l : Line) : State :=
  { s with data := s.data.set i.toNat ((s.data[i.toNat]).set w.val l) }

/-- PM replaced. -/
def State.setPm (s : State) (m : Memory) : State := { s with pm := m }

/-- The response port shows an answer (R83). -/
def State.respond (s : State) (r : Response) : State := { s with response := some r }

/-- The inputs still to be served. -/
def State.setInputs (s : State) (is : List Input) : State := { s with inputs := is }

/-- The `n` bytes of a line from an offset on, `line[o +: n]` (R10); an aligned access stays in the
line (R58). -/
def lineSlice (l : Line) (o n : Nat) : List Byte := (List.range n).map fun i => l[o + i]?.getD 0

/-- A line with the bytes from an offset on replaced (R120). -/
def lineStore (l : Line) (o : Nat) : List Byte → Line
  | [] => l
  | b :: bs => lineStore (l.setIfInBounds o b) (o + 1) bs

/-- `findInCache(s, ppf)` (R111): the way that hits, way 0 probed first (log 15); none on a miss. -/
def State.findInCache (s : State) (i : SetIx) (ppf : Pfn) : Option Way :=
  if (s.tag i 0).answers ppf then some 0
  else if (s.tag i 1).answers ppf then some 1
  else none

/-- `victim(s)` (R113). -/
def State.victim (s : State) (i : SetIx) : Way := victimOf (s.tag i 0).lrf (s.tag i 1).lrf

/-- The write-back of a way (R115), under `wb_policy` where the target is not plain RAM (R123). -/
def State.writeBack (s : State) (i : SetIx) (w : Way) : Except Refusal State :=
  if (s.tag i w).needsWriteBack then
    if s.backed (s.tag i w).pfn then
      .ok (s.setPm (s.pm.writeLine (lineAddr (s.tag i w).pfn i).toNat (s.line i w)))
    else
      match s.params.wbPolicy with
      | .refuse => .error .writebackUnbacked
      | .drop => .ok s
  else .ok s

/-- The fill of a way with the line of `pa` (R116) and its tag update (R117, R118). -/
def State.fill (s : State) (pa : PA) (w : Way) : State :=
  (s.setLine (setOf pa) w (s.pm.readLine (lineBase pa).toNat)).setTag (setOf pa) w
    ((s.tag (setOf pa) w).filled (pfnOf pa))

/-- `getFreeCache(pa)` (R114): select, write back, load, update the tag. -/
def State.getFreeCache (s : State) (pa : PA) : Except Refusal (Way × State) :=
  match s.writeBack (setOf pa) (s.victim (setOf pa)) with
  | .error r => .error r
  | .ok s1 => .ok (s.victim (setOf pa), s1.fill pa (s.victim (setOf pa)))

/-- `getLine(pa)` (R110): the way that holds the line of `pa`, filled on a miss. -/
def State.getLine (s : State) (pa : PA) : Except Refusal (Way × State) :=
  match s.findInCache (setOf pa) (pfnOf pa) with
  | some w => .ok (w, s)
  | none => s.getFreeCache pa

/-- `lineRead(s, w, o, n)` (R120). -/
def State.lineRead (s : State) (i : SetIx) (w : Way) (o : LineOff) (n : Nat) : BitVec (8 * n) :=
  leValue n (lineSlice (s.line i w) o.toNat n)

/-- `lineWrite(s, w, o, n, v)` (R120): the bytes, and DIRTY whatever the bytes were before. -/
def State.lineWrite (s : State) (i : SetIx) (w : Way) (o : LineOff) (n : Nat) (v : BitVec (8 * n)) :
    State :=
  (s.setLine i w (lineStore (s.line i w) o.toNat (leBytes n v))).setTag i w (s.tag i w).written

/-- READ(n) (R130): the value read and the state it leaves. The checks stand in the order of
`spec/60_exceptions.md` R167; the page check is log 4. -/
def readRequest (n : Nat) (ctx : Bool) (va : VA) (pfn : Pfn) (s : State) :
    Except Refusal (BitVec (8 * n) × State) :=
  let pa := physAddr s.params pfn va
  if alignedTo n va then
    if s.backed (pfnOf pa) then
      if s.checkCache ctx va then
        match s.getLine pa with
        | .error r => .error r
        | .ok (w, s1) => .ok (s1.lineRead (setOf pa) w (offOf pa) n, s1)
      else .ok (leValue n (s.pm.readBytes pa.toNat n), s)
    else .error .pageNotRam
  else .error .misaligned

/-- WRITE(n) (R140): the state it leaves; checks as in `readRequest`. -/
def writeRequest (n : Nat) (ctx : Bool) (va : VA) (pfn : Pfn) (v : BitVec (8 * n)) (s : State) :
    Except Refusal State :=
  let pa := physAddr s.params pfn va
  if alignedTo n va then
    if s.backed (pfnOf pa) then
      if s.checkCache ctx va then
        match s.getLine pa with
        | .error r => .error r
        | .ok (w, s1) => .ok (s1.lineWrite (setOf pa) w (offOf pa) n v)
      else .ok (s.setPm (s.pm.writeBytes pa.toNat (leBytes n v)))
    else .error .pageNotRam
  else .error .misaligned

/-- A read's response on the port: `Data(v)` (R83). -/
def finishRead {n : Nat} (data : BitVec (8 * n) → Response) :
    Except Refusal (BitVec (8 * n) × State) → Host.Outcome State Fault Refusal
  | .ok (v, s) => .next (s.respond (data v))
  | .error r => .refused r

/-- A write's response on the port: `Done` (R83). -/
def finishWrite : Except Refusal State → Host.Outcome State Fault Refusal
  | .ok s => .next (s.respond .done)
  | .error r => .refused r

/-- RESET of the block (R150, R38): both arrays empty; what `DATA` holds afterwards is a free value
(log 7). R150 applies in any state, so that a block that was shut down exists again (log 18). -/
def State.resetBlock (s : State) : State :=
  { s with
    tags := Vector.replicate 64 (Vector.replicate 2 TagEntry.empty)
    data := Vector.ofFn fun i => Vector.ofFn fun w => Config.lineAfterReset (BitVec.ofFin i) w
    running := true }

/-- The closed list of R166, as responses; every other refusal stops the machine (log 3, log 4). -/
def Refusal.asResponse : Refusal → Option RefuseReason
  | .reservedOp => some .reservedOp
  | .misaligned => some .misaligned
  | .writebackUnbacked => some .writebackUnbacked
  | _ => none

/-- How an outcome of an operation stands at the ports: a refusal of R166 is answered `Refused(reason)`
and changes nothing else of `s`, the state the operation was given (R83, R166; log 3). -/
def present (s : State) : Host.Outcome State Fault Refusal → Host.Outcome State Fault Refusal
  | .next t => .next t
  | .fault f => .fault f
  | .refused r =>
    match r.asResponse with
    | some why => .next (s.respond (.refused why))
    | none => .refused r

/-- The response as a fixed-width port shows it: 128 bits, those above W zero (R83). -/
def Response.port : Response → Option (BitVec 128)
  | .data8 v => some (v.setWidth 128)
  | .data16 v => some (v.setWidth 128)
  | .data32 v => some (v.setWidth 128)
  | .data64 v => some (v.setWidth 128)
  | .data128 v => some v
  | .done => none
  | .refused _ => none

end Sys2Proof.Machine
end

