-- ==== Sys2Proof/Machine/Control.lean ====
section
/-! DEFINITION. RESET, Init and Shutdown (`spec/44_system.md` R150 to R152) and the environment's actions
between two requests (R154; `spec/30_encoding.md` R93; `spec/41_lookup_fill.md` R123;
`spec/70_reset_and_hazards.md` R192). None of them is an operation code (R87). -/

namespace Sys2Proof.Machine

/-- RESET (R150), in any state: the arrays empty, dirty lines discarded (R151); PM and the filter's inputs
untouched. DESIGN CHOICE (log 18): after Shutdown it brings the block up again, as Init does. -/
def execReset (s : State) : Host.Outcome State Fault Refusal := .next s.resetBlock

/-- `Init` (R152), which for the block is RESET. -/
def execInit (s : State) : Host.Outcome State Fault Refusal := .next s.resetBlock

/-- `Shutdown` (R152): the block ceases to exist; nothing is written back. -/
def execShutdown (s : State) : Host.Outcome State Fault Refusal :=
  .next { s with running := false }

/-- `ENABLE` (R93, R154). -/
def execSetCacheEnable (on : Bool) (s : State) : Host.Outcome State Fault Refusal :=
  .next { s with cacheEnable := on }

/-- A change of `TLB[i]` (R154). -/
def execSetTlb (i : Fin 48) (e : TlbEntry) (s : State) : Host.Outcome State Fault Refusal :=
  .next { s with tlb := s.tlb.set i.val e }

/-- A TLB that marks exactly the listed ranges cacheable: entry 0 covers them, the others nothing. -/
def cacheableTlb (ranges : List VaRange) : Vector TlbEntry 48 :=
  (Vector.replicate 48 TlbEntry.none).set 0 { ranges := ranges, cacheable := true }

/-- `CACHEABLE` (R93): `tlb_cacheable` true exactly for the listed ranges. -/
def execSetCacheable (ranges : List VaRange) (s : State) : Host.Outcome State Fault Refusal :=
  .next { s with tlb := cacheableTlb ranges }

/-- Another agent writes PM (R70, R93); beyond the physical address space there is nothing to write
(R34, log 23). -/
def execWritePm (a : PA) (bytes : List Byte) (s : State) : Host.Outcome State Fault Refusal :=
  if a.toNat + bytes.length ≤ 2 ^ s.params.paBits then
    .next (s.setPm (s.pm.writeBytes a.toNat bytes))
  else .fault .outsideMemory

/-- A physical page becomes plain RAM or ceases to be it (R123). Nothing in the block moves (R191). -/
def execSetBacked (pfn : Pfn) (ram : Bool) (s : State) : Host.Outcome State Fault Refusal :=
  let k := (clipPfn s.params pfn).toNat
  .next { s with unbacked := if ram then pagesErase s.unbacked k else pagesInsert s.unbacked k }

/-- A save state is loaded: RESET followed by a change of PM, as `spec/92_eei_decisions.md` D25 tells a
model that must cover it. PRESUMED (log 22), and so after Shutdown too, where the RESET that a load starts
with brings the block up again (log 18). -/
def execLoadState (image : List Host.Cell) (s : State) : Host.Outcome State Fault Refusal :=
  if image.all (fun c => c.1 < 2 ^ s.params.paBits) then
    .next (s.resetBlock.setPm (Memory.ofImage image))
  else .fault .outsideMemory

/-- A control input at the block or its environment. -/
def execControl (c : Control) (s : State) : Host.Outcome State Fault Refusal :=
  match c with
  | .reset => execReset s
  | .init => execInit s
  | .shutdown => execShutdown s
  | .setCacheEnable on => execSetCacheEnable on s
  | .setTlb i e => execSetTlb i e s
  | .setCacheable ranges => execSetCacheable ranges s
  | .writePm a bytes => execWritePm a bytes s
  | .setBacked pfn ram => execSetBacked pfn ram s
  | .loadState image => execLoadState image s

end Sys2Proof.Machine
end

