-- ==== Sys2Proof/Machine/Read.lean ====
section
/-! DEFINITION. The five read operations (`spec/42_read.md` R131 to R135). -/

namespace Sys2Proof.Machine

/-- RD8 (R131): READ(1). -/
def execRd8 (ctx : Bool) (va : VA) (pfn : Pfn) (s : State) : Host.Outcome State Fault Refusal :=
  finishRead .data8 (readRequest 1 ctx va pfn s)

/-- RD16 (R132): READ(2). -/
def execRd16 (ctx : Bool) (va : VA) (pfn : Pfn) (s : State) : Host.Outcome State Fault Refusal :=
  finishRead .data16 (readRequest 2 ctx va pfn s)

/-- RD32 (R133): READ(4). -/
def execRd32 (ctx : Bool) (va : VA) (pfn : Pfn) (s : State) : Host.Outcome State Fault Refusal :=
  finishRead .data32 (readRequest 4 ctx va pfn s)

/-- RD64 (R134): READ(8). -/
def execRd64 (ctx : Bool) (va : VA) (pfn : Pfn) (s : State) : Host.Outcome State Fault Refusal :=
  finishRead .data64 (readRequest 8 ctx va pfn s)

/-- RD128 (R135): READ(16). -/
def execRd128 (ctx : Bool) (va : VA) (pfn : Pfn) (s : State) : Host.Outcome State Fault Refusal :=
  finishRead .data128 (readRequest 16 ctx va pfn s)

end Sys2Proof.Machine
end

