-- ==== Sys2Proof/Machine/Write.lean ====
section
/-! DEFINITION. The five write operations (`spec/43_write.md` R141 to R145). -/

namespace Sys2Proof.Machine

/-- WR8 (R141): WRITE(1). -/
def execWr8 (ctx : Bool) (va : VA) (pfn : Pfn) (v : BitVec 8) (s : State) :
    Host.Outcome State Fault Refusal :=
  finishWrite (writeRequest 1 ctx va pfn v s)

/-- WR16 (R142): WRITE(2). -/
def execWr16 (ctx : Bool) (va : VA) (pfn : Pfn) (v : BitVec 16) (s : State) :
    Host.Outcome State Fault Refusal :=
  finishWrite (writeRequest 2 ctx va pfn v s)

/-- WR32 (R143): WRITE(4). -/
def execWr32 (ctx : Bool) (va : VA) (pfn : Pfn) (v : BitVec 32) (s : State) :
    Host.Outcome State Fault Refusal :=
  finishWrite (writeRequest 4 ctx va pfn v s)

/-- WR64 (R144): WRITE(8). -/
def execWr64 (ctx : Bool) (va : VA) (pfn : Pfn) (v : BitVec 64) (s : State) :
    Host.Outcome State Fault Refusal :=
  finishWrite (writeRequest 8 ctx va pfn v s)

/-- WR128 (R145): WRITE(16). -/
def execWr128 (ctx : Bool) (va : VA) (pfn : Pfn) (v : BitVec 128) (s : State) :
    Host.Outcome State Fault Refusal :=
  finishWrite (writeRequest 16 ctx va pfn v s)

end Sys2Proof.Machine
end

