-- ==== Sys2Proof/Machine/Dispatch.lean ====
section
/-! DEFINITION. One arm per operation of `spec/opcode_table.json`. -/

namespace Sys2Proof.Machine

def exec (i : Instr) (s : State) : Host.Outcome State Fault Refusal :=
  match i with
  | .rd8 ctx va pfn => Sys2Proof.Machine.execRd8 ctx va pfn s
  | .rd16 ctx va pfn => Sys2Proof.Machine.execRd16 ctx va pfn s
  | .rd32 ctx va pfn => Sys2Proof.Machine.execRd32 ctx va pfn s
  | .rd64 ctx va pfn => Sys2Proof.Machine.execRd64 ctx va pfn s
  | .rd128 ctx va pfn => Sys2Proof.Machine.execRd128 ctx va pfn s
  | .wr8 ctx va pfn v => Sys2Proof.Machine.execWr8 ctx va pfn v s
  | .wr16 ctx va pfn v => Sys2Proof.Machine.execWr16 ctx va pfn v s
  | .wr32 ctx va pfn v => Sys2Proof.Machine.execWr32 ctx va pfn v s
  | .wr64 ctx va pfn v => Sys2Proof.Machine.execWr64 ctx va pfn v s
  | .wr128 ctx va pfn v => Sys2Proof.Machine.execWr128 ctx va pfn v s

end Sys2Proof.Machine
end

