-- ==== Sys2Proof/Machine/Step.lean ====
section
/-! DEFINITION. One step: the oldest input is served to completion (`spec/44_system.md` R155). -/

namespace Sys2Proof.Machine

/-- A request at a block that exists: decode (R82, R85), run the operation, and show the response
(R83). `s` is the state with the request taken off the port. -/
def serveRequest (r : Request) (s : State) : Host.Outcome State Fault Refusal :=
  present s (match decode r with
    | .ok i => exec i s
    | .error .reservedOp => .refused .reservedOp)

/-- One step. With no input the block does nothing (`spec/60_exceptions.md` R165; log 1). -/
def step (s : State) : Host.Outcome State Fault Refusal :=
  match s.inputs with
  | [] => .next s
  | .request r :: rest =>
    if s.running then serveRequest r (s.setInputs rest) else .fault .afterShutdown
  | .control c :: rest => execControl c (s.setInputs rest)

/-- `s` with the request whose low `nbits` serial bits are `w` (all others 0) as its next input, at a
block that exists (log 1, log 2). -/
def State.withFetchWord (s : State) (nbits w : Nat) : State :=
  { s with
    inputs := .request (Request.ofWord (BitVec.ofNat requestBits (w % 2 ^ nbits))) :: s.inputs
    running := true }

end Sys2Proof.Machine
end

