-- ==== Sys2Proof/Safety.lean ====
section
/-! DEFINITION. What counts as a good state and a safe run, and the words the statements use. -/

namespace Sys2Proof.Machine

/-- The physical address of an operation's access (`spec/20_memory.md` R51). -/
abbrev State.pa (s : State) (i : Instr) : PA := physAddr s.params i.pfn i.va

/-- The set of an operation's access (R53). -/
abbrev State.setIx (s : State) (i : Instr) : SetIx := setOf (s.pa i)

/-- The line of a page frame and a set is resident (`spec/10_state.md` R24): some way is valid and its
tag names the frame. -/
abbrev State.resident (s : State) (pfn : Pfn) (set : SetIx) : Prop :=
  ∃ w : Way, (s.tag set w).valid = true ∧ (s.tag set w).pfn = pfn

/-- The operation is served by the cache (`spec/40_filter.md` R103). -/
abbrev State.cached (s : State) (i : Instr) : Prop := s.checkCache i.staticCtx i.va = true

/-- The operation finds its line resident. -/
abbrev State.hits (s : State) (i : Instr) : Prop := s.resident (pfnOf (s.pa i)) (s.setIx i)

/-- What an environment that keeps `spec/70_reset_and_hazards.md` R183 presents: an aligned operation on
a plain-RAM page. -/
abbrev State.presentable (s : State) (i : Instr) : Prop :=
  i.aligned = true ∧ s.backed (pfnOf (s.pa i)) = true

/-- The way a miss in a set replaces, `LRF0 xor LRF1` (`spec/41_lookup_fill.md` R113). -/
abbrev State.victimTag (s : State) (set : SetIx) : TagEntry := s.tag set (s.victim set)

/-- A miss in the set writes a line back to PM: its victim is dirty and valid (R115) and the page of
the target is plain RAM (R123). -/
abbrev State.writesBack (s : State) (set : SetIx) : Prop :=
  (s.victimTag set).dirty = true ∧ (s.victimTag set).valid = true ∧
    s.backed (s.victimTag set).pfn = true

/-- A miss in the set has a dirty and valid victim whose page is no longer plain RAM (R123). -/
abbrev State.strandedVictim (s : State) (set : SetIx) : Prop :=
  (s.victimTag set).dirty = true ∧ (s.victimTag set).valid = true ∧
    s.backed (s.victimTag set).pfn = false

/-- The address of the line a miss in the set writes back (R115). -/
abbrev State.victimLine (s : State) (set : SetIx) : Nat := (lineAddr (s.victimTag set).pfn set).toNat

/-- Byte `k` of the value a write stores, `wdata[8k+7:8k]` (`spec/43_write.md` R141 to R145). -/
def storedByte : Instr → Nat → Byte
  | .rd8 _ _ _, _ => 0
  | .rd16 _ _ _, _ => 0
  | .rd32 _ _ _, _ => 0
  | .rd64 _ _ _, _ => 0
  | .rd128 _ _ _, _ => 0
  | .wr8 _ _ _ v, k => v.extractLsb' (8 * k) 8
  | .wr16 _ _ _ v, k => v.extractLsb' (8 * k) 8
  | .wr32 _ _ _ v, k => v.extractLsb' (8 * k) 8
  | .wr64 _ _ _ v, k => v.extractLsb' (8 * k) 8
  | .wr128 _ _ _ v, k => v.extractLsb' (8 * k) 8

/-- The response is `Data(v)` of exactly `n` bytes, byte `k` of `v` being `f k`, the lowest address
least significant (`spec/20_memory.md` R55, `spec/30_encoding.md` R83). -/
def Response.dataOf (r : Response) (n : Nat) (f : Nat → Byte) : Prop :=
  match r with
  | .data8 v => n = 1 ∧ ∀ k < 1, v.extractLsb' (8 * k) 8 = f k
  | .data16 v => n = 2 ∧ ∀ k < 2, v.extractLsb' (8 * k) 8 = f k
  | .data32 v => n = 4 ∧ ∀ k < 4, v.extractLsb' (8 * k) 8 = f k
  | .data64 v => n = 8 ∧ ∀ k < 8, v.extractLsb' (8 * k) 8 = f k
  | .data128 v => n = 16 ∧ ∀ k < 16, v.extractLsb' (8 * k) 8 = f k
  | .done => False
  | .refused _ => False

/-- The inputs of the filter, the parameters, the ports' queue and the block's existence are the same:
all that no request touches (`spec/10_state.md` R13, R30 to R33). -/
abbrev State.sameInputs (s t : State) : Prop :=
  t.cacheEnable = s.cacheEnable ∧ t.tlb = s.tlb ∧ t.unbacked = s.unbacked ∧ t.inputs = s.inputs ∧
    t.running = s.running ∧ t.params = s.params

/-- Every byte of PM outside the `n` bytes at `a` reads the same. -/
def State.sameMemoryOutside (s t : State) (a n : Nat) : Prop :=
  ∀ b : Nat, (b < a ∨ a + n ≤ b) → t.pm.read b = s.pm.read b

/-- What holds of the two ways of every set in a run from reset: both flags patterns of
`spec/10_state.md` R35 and R36. -/
structure SetInv (p : Params) (t0 t1 : TagEntry) : Prop where
  /-- R35: at most one way claims a physical line. -/
  unique : ¬ (t0.valid = true ∧ t1.valid = true ∧ t0.pfn = t1.pfn)
  /-- R36 (a): DIRTY implies VALID. -/
  dirty0 : t0.dirty = true → t0.valid = true
  dirty1 : t1.dirty = true → t1.valid = true
  /-- R36 (b): LOCK and the reserved bits are 0. -/
  lock0 : t0.lock = false
  lock1 : t1.lock = false
  rsv0 : t0.rsv = 0#2
  rsv1 : t1.rsv = 0#2
  /-- R36 (d), (e): the first fill of a set goes to way 0, the second to way 1. -/
  first : t0.valid = false → t1.valid = false ∧ t0.lrf = false ∧ t1.lrf = false
  second : t0.valid = true → t1.valid = false → t0.lrf = true ∧ t1.lrf = false
  /-- R22: a tag is `TAG_BITS` wide. -/
  fits0 : t0.pfn.toNat < 2 ^ (p.paBits - 12)
  fits1 : t1.pfn.toNat < 2 ^ (p.paBits - 12)

/-- A list of operations, one after the other, stopping at the first that does not answer. -/
def execAll : List Instr → State → Host.Outcome State Fault Refusal
  | [], s => .next s
  | i :: is, s =>
    match exec i s with
    | .next t => execAll is t
    | .fault f => .fault f
    | .refused r => .refused r

/-- The invariant of the machine. -/
structure State.Inv (s : State) : Prop where
  /-- The parameters are within the bounds of R8 and R88. -/
  params : s.params.wf
  /-- PM is in canonical form and inside the physical address space (R34). -/
  memory : s.pm.wf
  bounded : s.pm.below (2 ^ s.params.paBits)
  /-- The pages that are not plain RAM are listed rising. -/
  pages : s.unbacked.Pairwise (· < ·)
  sets : ∀ i : SetIx, SetInv s.params (s.tag i 0) (s.tag i 1)

/-- A step is safe when the machine goes on. -/
def safeStep (s : State) : Prop := ∃ t, step s = .next t

/-- A run of `k` steps is safe when every one of its steps is. -/
def safeRun : Nat → State → Prop
  | 0, _ => True
  | k + 1, s => ∃ t, step s = .next t ∧ safeRun k t

end Sys2Proof.Machine
end

