-- ==== Sys2Proof/Certificates/Slice0/Obligations.lean ====
section
/-! DEFINITION. The statements about the model. In the docstrings R<n> is a rule of `spec/`, D<n> a decision
of `spec/92_eei_decisions.md` (the spec's own choice), "log <n>" an entry of `notes/assumptions/`. -/

open Sys2Proof Sys2Proof.Machine

/-! ## The step and the decoder -/

/-- A request that decodes to an operation, at the head of the inputs of a block that exists: the step is
that operation at the state with the request taken off the port (44 section 3). A next state passes as it
is; no operation faults (60 section 1); a refusal of 60 section 3 becomes the response `Refused(reason)`
(log 3); a request for a page that is not plain RAM stops the machine (log 4). -/
def Obligations.StepServesOldestRequest : Prop :=
  ∀ (s : State) (r : Request) (rest : List Input) (i : Instr),
    s.inputs = .request r :: rest → s.running = true → decode r = .ok i →
    (∀ t, exec i (s.setInputs rest) = .next t → step s = .next t) ∧
    (∀ f, exec i (s.setInputs rest) ≠ .fault f) ∧
    (exec i (s.setInputs rest) = .refused .misaligned →
      step s = .next ((s.setInputs rest).respond (.refused .misaligned))) ∧
    (exec i (s.setInputs rest) = .refused .writebackUnbacked →
      step s = .next ((s.setInputs rest).respond (.refused .writebackUnbacked))) ∧
    (exec i (s.setInputs rest) = .refused .pageNotRam → step s = .refused .pageNotRam)

/-- An operation's serial word placed as the next input is what the very next step runs (log 1, log 2). -/
def Obligations.StepRunsPlacedWord : Prop :=
  ∀ (s : State) (i : Instr),
    step (s.withFetchWord requestBits (encodeWord i).toNat) =
      present { s with running := true } (exec i { s with running := true })

/-- Inputs are served in arrival order, one a step (44 section 3, R155). A step takes the oldest input off; a
control input or an action of the environment takes its effect at the state that leaves (44 sections 1 and 2);
a request is served there by a block that exists, and is a fault after Shutdown (44 section 1, R152; log 18);
with no input the block does nothing, since it acts only in answer to one (60 section 2, R165; log 1). -/
def Obligations.InputsServedInArrivalOrder : Prop :=
  (∀ (s t : State) (x : Input) (rest : List Input),
    s.inputs = x :: rest → step s = .next t → t.inputs = rest) ∧
  (∀ (s : State) (c : Control) (rest : List Input),
    s.inputs = .control c :: rest → step s = execControl c (s.setInputs rest)) ∧
  (∀ (s : State) (r : Request) (rest : List Input), s.inputs = .request r :: rest →
    step s = if s.running then serveRequest r (s.setInputs rest) else .fault .afterShutdown) ∧
  ∀ s : State, s.inputs = [] → step s = .next s

/-- The six reserved codes, and only they, are rejected by the decoder (30 section 3; D7). -/
def Obligations.ReservedCodesExactly : Prop :=
  ∀ r : Request, decode r = .error .reservedOp ↔ 5 ≤ (r.op.extractLsb' 0 3).toNat

/-- A request with a reserved code is answered `Refused(ReservedOp)` whatever its alignment, and nothing
else changes (30 section 3, 60 section 4; D7, D29; log 3). -/
def Obligations.ReservedCodesAnswerReservedOp : Prop :=
  ∀ (s : State) (r : Request) (rest : List Input),
    s.inputs = .request r :: rest → s.running = true → 5 ≤ (r.op.extractLsb' 0 3).toNat →
    step s = .next ((s.setInputs rest).respond (.refused .reservedOp))

/-- Words written out from the operation map of 30 section 3 decode to their operations (D6). -/
def Obligations.TableWordsDecode : Prop :=
  decodeTableWord 8 0b0000 = some (.rd8 false 0 0) ∧
  decodeTableWord 8 0b0001 = some (.rd16 false 0 0) ∧
  decodeTableWord 8 0b0010 = some (.rd32 false 0 0) ∧
  decodeTableWord 8 0b0011 = some (.rd64 false 0 0) ∧
  decodeTableWord 8 0b0100 = some (.rd128 false 0 0) ∧
  decodeTableWord 8 0b1000 = some (.wr8 false 0 0 0) ∧
  decodeTableWord 8 0b1001 = some (.wr16 false 0 0 0) ∧
  decodeTableWord 8 0b1010 = some (.wr32 false 0 0 0) ∧
  decodeTableWord 8 0b1011 = some (.wr64 false 0 0 0) ∧
  decodeTableWord 8 0b1100 = some (.wr128 false 0 0 0) ∧
  decodeTableWord 8 0b0101 = none ∧ decodeTableWord 8 0b1111 = none

/-- Decoding the serial word of any operation, with every operand at every value, gives it back
(30 sections 2 and 3; the serial form is log 2). -/
def Obligations.DecodeInvertsEncodeWord : Prop :=
  ∀ i : Instr, decodeTableWord requestBits (encodeWord i).toNat = some i

/-- The way back from a request: an operation's request agrees with the one it was decoded from in every
field a read or a write uses, and `wdata` bits above W (all of them, for a read) change nothing
(30 sections 2 and 3; D6). -/
def Obligations.DecodeUsesOnlyItsOperands : Prop :=
  ∀ (r : Request) (i : Instr), decode r = .ok i →
    (encode i).op = r.op ∧ (encode i).staticCtx = r.staticCtx ∧ (encode i).va = r.va ∧
    (encode i).pfn = r.pfn ∧
    (i.isWrite = true → ∀ k < 8 * i.bytes, (encode i).wdata.getLsbD k = r.wdata.getLsbD k) ∧
    ∀ x : BitVec 128, (i.isWrite = true → ∀ k < 8 * i.bytes, x.getLsbD k = r.wdata.getLsbD k) →
      decode { r with wdata := x } = .ok i

/-! ## Addresses, the tag word, the backing store as data -/

/-- R11: a physical address is the concatenation of its page frame, set and offset; its line base has the
low 6 bits cleared; set and offset of an access may be taken from the virtual address. -/
def Obligations.AddressDecomposition : Prop :=
  (∀ pa : PA, pfnOf pa ++ setOf pa ++ offOf pa = pa ∧ lineBase pa = pfnOf pa ++ setOf pa ++ 0#6) ∧
  ∀ (p : Params) (pfn : Pfn) (va : VA),
    (physAddr p pfn va).extractLsb' 0 12 = va.extractLsb' 0 12 ∧
    setOf (physAddr p pfn va) = va.extractLsb' 6 6 ∧
    offOf (physAddr p pfn va) = va.extractLsb' 0 6

/-- R53: two addresses are in the same set exactly when their lines are equal modulo 4096, and the index
of an access is the same from the virtual and from the physical address. -/
def Obligations.SetsTilePhysicalMemory : Prop :=
  (∀ a b : PA, setOf a = setOf b ↔ (lineBase a).toNat % 4096 = (lineBase b).toNat % 4096) ∧
  ∀ (p : Params) (pfn : Pfn) (va : VA), setOf (physAddr p pfn va) = setOf va

/-- The physical address of an access is `pfn ++ va[11:0]`, its page frame being the one the request names
(20 section 1, R51; 30 section 2, R81; D1); of a frame wider than the port the bits above `TAG_BITS` are dropped,
which is the model's choice (log 10). An aligned access lies in one line, and in the physical address space
(20 section 3, R58; D9). -/
def Obligations.AlignedAccessStaysInLine : Prop :=
  (∀ (p : Params) (pfn : Pfn) (va : VA), p.wf → pfn.toNat < 2 ^ (p.paBits - 12) →
    physAddr p pfn va = pfn ++ va.extractLsb' 0 12 ∧ pfnOf (physAddr p pfn va) = pfn) ∧
  (∀ (p : Params) (pfn : Pfn) (va : VA), p.wf →
    (pfnOf (physAddr p pfn va)).toNat = pfn.toNat % 2 ^ (p.paBits - 12)) ∧
  ∀ (s : State) (i : Instr), s.params.wf → i.aligned = true →
    (offOf (s.pa i)).toNat + i.bytes ≤ 64 ∧
    (s.pa i).toNat = (lineBase (s.pa i)).toNat + (offOf (s.pa i)).toNat ∧
    (lineBase (s.pa i)).toNat + 64 ≤ 2 ^ s.params.paBits

/-- A tag entry is recovered from its packed word, for every legal choice of the flag positions
(30 section 4; D3, D4, D5). -/
def Obligations.TagWordUnpacks : Prop :=
  ∀ (p : Params) (e : TagEntry), p.wf → unpackTag p (tagWord p e) = e

/-- The write-back target the model forms is the source's `(tag & ~flagbits) | (set << 6)`
(30 section 4, R90; the layout is D3). -/
def Obligations.WriteBackTargetIsSourceFormula : Prop :=
  ∀ (p : Params) (e : TagEntry) (set : SetIx),
    targetOfWord (tagWord p e) set = lineAddr e.pfn set ∧
    (tagWord p e).extractLsb' 6 6 = 0#6

/-- Two memories in canonical form that read the same everywhere are the same data (log 5). -/
def Obligations.CanonicalMemoriesAreEqual : Prop :=
  ∀ m m' : Memory, m.wf → m'.wf → (∀ a, m.read a = m'.read a) → m = m'

/-! ## The filter -/

/-- R100: the cache activates exactly when the request does not rely on static JIT knowledge, the cache is
enabled and the TLB scan marks the address; the answer depends on nothing else. -/
def Obligations.FilterConditions : Prop :=
  (∀ (s : State) (ctx : Bool) (va : VA),
    s.checkCache ctx va = true ↔ ctx = false ∧ s.cacheEnable = true ∧ tlbCacheable s.tlb va = true) ∧
  ∀ (s t : State) (ctx : Bool) (va : VA), t.cacheEnable = s.cacheEnable → t.tlb = s.tlb →
    t.checkCache ctx va = s.checkCache ctx va

/-- The TLB scan is existential over the 48 entries (40 section 1, R102; D15). -/
def Obligations.TlbScanIsExistential : Prop :=
  ∀ (tlb : Vector TlbEntry 48) (va : VA),
    tlbCacheable tlb va = true ↔
      ∃ k : Fin 48, tlb[k.val].covers va = true ∧ tlb[k.val].cacheable = true

/-- After `CACHEABLE`, exactly the listed ranges are cacheable, and the TLB is all that has changed
(30 section 5, R93; 44 section 2, R154; D26, D27). -/
def Obligations.CacheableDirectiveIsExact : Prop :=
  ∀ (s : State) (ranges : List VaRange),
    ∃ tlb, execControl (.setCacheable ranges) s = .next { s with tlb := tlb } ∧
      ∀ va, tlbCacheable tlb va = true ↔ ∃ r ∈ ranges, r.lo ≤ va ∧ va ≤ r.hi

/-- `ENABLE` writes the bit `cache_enable` and changes nothing else: with 0 no access is served by the cache,
with 1 the static context and the TLB decide (30 section 5, R93; 44 section 2, R154; D14, D27; log 16). -/
def Obligations.EnableWritesCacheEnable : Prop :=
  ∀ (s : State) (on : Bool),
    execControl (.setCacheEnable on) s = .next { s with cacheEnable := on } ∧
    ∀ ctx va, { s with cacheEnable := on }.checkCache ctx va = (on && !ctx && tlbCacheable s.tlb va)

/-! ## What an operation does: bypass, hit, miss -/

/-- RD8, RD16, RD32, RD64, RD128 round the cache: `Data` of the bytes of PM at the access, nothing else
changes (42 sections 1 and 2; 40 section 2; D8, D9, D17). -/
def Obligations.BypassReadsReturnMemory : Prop :=
  ∀ (s : State) (i : Instr), i.isWrite = false → s.presentable i → ¬ s.cached i →
    ∃ r, exec i s = .next (s.respond r) ∧
      r.dataOf i.bytes fun k => s.pm.read ((s.pa i).toNat + k)

/-- RD8, RD16, RD32, RD64, RD128 that hit: `Data` of the bytes of the line that is resident; no state of
the block changes, not even LRF, and PM is not touched (42 sections 1 to 3; 41 section 4; D8). -/
def Obligations.ReadHitsReturnTheLine : Prop :=
  ∀ (s : State) (i : Instr), i.isWrite = false → s.presentable i → s.cached i → s.hits i →
    ∃ r w, (s.tag (s.setIx i) w).valid = true ∧ (s.tag (s.setIx i) w).pfn = pfnOf (s.pa i) ∧
      exec i s = .next (s.respond r) ∧
      r.dataOf i.bytes fun k => (s.line (s.setIx i) w)[(offOf (s.pa i)).toNat + k]?.getD 0

/-- RD8, RD16, RD32, RD64, RD128 that miss: the victim way is filled with the line of PM, its entry gets
the page frame, VALID 1, DIRTY 0 and the flipped LRF, LOCK and the reserved bits kept, and the answer is
`Data` of the bytes of PM (42 section 1; 41 section 3; D8, D12). -/
def Obligations.ReadMissesFillTheLine : Prop :=
  ∀ (s : State) (i : Instr), i.isWrite = false → s.presentable i → s.cached i → ¬ s.hits i →
    ¬ (s.strandedVictim (s.setIx i) ∧ s.params.wbPolicy = .refuse) →
    ∃ t r, exec i s = .next t ∧ t.response = some r ∧
      (r.dataOf i.bytes fun k => s.pm.read ((s.pa i).toNat + k)) ∧
      t.tag (s.setIx i) (s.victim (s.setIx i)) =
        { s.victimTag (s.setIx i) with
          pfn := pfnOf (s.pa i), valid := true, dirty := false, lrf := !(s.victimTag (s.setIx i)).lrf } ∧
      ∀ k (hk : k < 64), (t.line (s.setIx i) (s.victim (s.setIx i)))[k] =
        s.pm.read ((lineBase (s.pa i)).toNat + k)

/-- WR8, WR16, WR32, WR64, WR128 round the cache: `Done`, the `n` bytes of PM at the access become the
low W bits of `wdata`, every other byte and all else unchanged (43 sections 1 and 2; D8, D9, D17). -/
def Obligations.BypassWritesStoreInMemory : Prop :=
  ∀ (s : State) (i : Instr), i.isWrite = true → s.presentable i → ¬ s.cached i →
    ∃ m, exec i s = .next { s with pm := m, response := some .done } ∧
      (∀ k < i.bytes, m.read ((s.pa i).toNat + k) = storedByte i k) ∧
      ∀ b, (b < (s.pa i).toNat ∨ (s.pa i).toNat + i.bytes ≤ b) → m.read b = s.pm.read b

/-- WR8, WR16, WR32, WR64, WR128 that hit: `Done`, the `n` bytes of the resident line at the offset become
the low W bits of `wdata`, its other bytes stay, DIRTY is set and no other field of its entry changes; PM
is not written (43 sections 1 and 2; 41 section 4; D8). -/
def Obligations.WriteHitsChangeTheLine : Prop :=
  ∀ (s : State) (i : Instr), i.isWrite = true → s.presentable i → s.cached i → s.hits i →
    ∃ t w, (s.tag (s.setIx i) w).valid = true ∧ (s.tag (s.setIx i) w).pfn = pfnOf (s.pa i) ∧
      exec i s = .next t ∧ t.response = some .done ∧ t.pm = s.pm ∧
      t.tag (s.setIx i) w = { s.tag (s.setIx i) w with dirty := true } ∧
      ∀ k (hk : k < 64), (t.line (s.setIx i) w)[k] =
        if (offOf (s.pa i)).toNat ≤ k ∧ k < (offOf (s.pa i)).toNat + i.bytes then
          storedByte i (k - (offOf (s.pa i)).toNat)
        else (s.line (s.setIx i) w)[k]

/-- WR8, WR16, WR32, WR64, WR128 that miss: write-allocate. The victim way is filled as by a read, then the
`n` bytes are stored in the line and DIRTY is set; the bytes not covered hold PM's content
(43 sections 1 and 3; D8, D11, D12). -/
def Obligations.WriteMissesAllocate : Prop :=
  ∀ (s : State) (i : Instr), i.isWrite = true → s.presentable i → s.cached i → ¬ s.hits i →
    ¬ (s.strandedVictim (s.setIx i) ∧ s.params.wbPolicy = .refuse) →
    ∃ t, exec i s = .next t ∧ t.response = some .done ∧
      t.tag (s.setIx i) (s.victim (s.setIx i)) =
        { s.victimTag (s.setIx i) with
          pfn := pfnOf (s.pa i), valid := true, dirty := true, lrf := !(s.victimTag (s.setIx i)).lrf } ∧
      ∀ k (hk : k < 64), (t.line (s.setIx i) (s.victim (s.setIx i)))[k] =
        if (offOf (s.pa i)).toNat ≤ k ∧ k < (offOf (s.pa i)).toNat + i.bytes then
          storedByte i (k - (offOf (s.pa i)).toNat)
        else s.pm.read ((lineBase (s.pa i)).toNat + k)

/-- Every operation an environment that keeps its obligations presents completes, as long as no write-back
can meet a page that is not plain RAM or the policy is `drop`: a read with `Data` of its width, a write with
`Done` (60 section 1; 41 section 6; D9, D20). -/
def Obligations.PresentedOperationsComplete : Prop :=
  ∀ (s : State) (i : Instr), s.presentable i →
    ((∀ pfn, s.backed pfn = true) ∨ s.params.wbPolicy = .drop) →
    ∃ t, exec i s = .next t ∧
      ((i.isWrite = true ∧ t.response = some .done) ∨
       (i.isWrite = false ∧ ∃ r f, t.response = some r ∧ r.dataOf i.bytes f))

/-- While every page is plain RAM, no request stops a block that exists: whatever the request, the step
goes on (60 sections 1 and 3; log 3). -/
def Obligations.RequestsNeverStopOnPlainRam : Prop :=
  ∀ (s : State) (r : Request) (rest : List Input),
    s.unbacked = [] → s.running = true → s.inputs = .request r :: rest → safeStep s

/-- The response of a read on a 128-bit port: bytes 0 to n - 1 are the data, the bits above W are 0
(30 section 2; D10). -/
def Obligations.ReadPortUpperBitsZero : Prop :=
  ∀ (r : Response) (n : Nat) (f : Nat → Byte), r.dataOf n f →
    ∃ x : BitVec 128, r.port = some x ∧ (∀ k < n, x.extractLsb' (8 * k) 8 = f k) ∧
      ∀ b, 8 * n ≤ b → x.getLsbD b = false

/-! ## Frames -/

/-- No operation changes the filter's inputs, the list of plain-RAM pages, the inputs still to be served,
the block's existence or the parameters (10 section 5, R33; 00 R13). -/
def Obligations.OperationsLeaveInputsAlone : Prop :=
  ∀ (s t : State) (i : Instr), exec i s = .next t → s.sameInputs t

/-- The frame of the two arrays, for all ten operations: round the cache nothing changes; through it no
other set changes; a read that hits changes nothing; a write that hits changes only a way that holds the
line; a miss changes only the victim way (40 section 2; 41 sections 3 and 4; D12, D17). -/
def Obligations.FrameOfTheArrays : Prop :=
  ∀ (s t : State) (i : Instr), exec i s = .next t →
    (¬ s.cached i → t.tags = s.tags ∧ t.data = s.data) ∧
    (∀ j v, j ≠ s.setIx i → t.tag j v = s.tag j v ∧ t.line j v = s.line j v) ∧
    (s.hits i → i.isWrite = false → t.tags = s.tags ∧ t.data = s.data) ∧
    (s.hits i → ∀ v, ¬ ((s.tag (s.setIx i) v).valid = true ∧ (s.tag (s.setIx i) v).pfn = pfnOf (s.pa i)) →
      t.tag (s.setIx i) v = s.tag (s.setIx i) v ∧ t.line (s.setIx i) v = s.line (s.setIx i) v) ∧
    (¬ s.hits i → ∀ v, v ≠ s.victim (s.setIx i) →
      t.tag (s.setIx i) v = s.tag (s.setIx i) v ∧ t.line (s.setIx i) v = s.line (s.setIx i) v)

/-- The frame of PM, for all ten operations: a read round the cache, a hit, and a miss that writes nothing
back leave every byte; a write round the cache changes at most its `n` bytes; a miss that writes a victim
back changes at most the 64 bytes of the victim's line (20 section 7; 41 section 3; D17). -/
def Obligations.FrameOfMemory : Prop :=
  ∀ (s t : State) (i : Instr), exec i s = .next t →
    (¬ s.cached i → i.isWrite = false → t.pm = s.pm) ∧
    (¬ s.cached i → i.isWrite = true → s.sameMemoryOutside t (s.pa i).toNat i.bytes) ∧
    (s.cached i → s.hits i → t.pm = s.pm) ∧
    (s.cached i → ¬ s.hits i → ¬ s.writesBack (s.setIx i) → t.pm = s.pm) ∧
    (s.cached i → ¬ s.hits i → s.writesBack (s.setIx i) →
      s.sameMemoryOutside t (s.victimLine (s.setIx i)) 64)

/-- The flags of every line under every operation: LOCK and the reserved bits never change; VALID is never
cleared; LRF changes only at the way a miss fills; DIRTY is cleared only there, and set only by a write
through the cache in its own set (10 section 3; 41 sections 3 and 4; D12). -/
def Obligations.FlagsChangeOnlyByFillAndWrite : Prop :=
  ∀ (s t : State) (i : Instr) (j : SetIx) (v : Way), exec i s = .next t →
    (t.tag j v).lock = (s.tag j v).lock ∧ (t.tag j v).rsv = (s.tag j v).rsv ∧
    ((s.tag j v).valid = true → (t.tag j v).valid = true) ∧
    ((t.tag j v).lrf ≠ (s.tag j v).lrf ∨ ((s.tag j v).dirty = true ∧ (t.tag j v).dirty = false) →
      s.cached i ∧ ¬ s.hits i ∧ j = s.setIx i ∧ v = s.victim (s.setIx i)) ∧
    ((s.tag j v).dirty = false → (t.tag j v).dirty = true →
      s.cached i ∧ i.isWrite = true ∧ j = s.setIx i)

/-! ## Victim selection and write-back -/

/-- At each miss, of a write as of a read (D11), the way filled is `LRF0 xor LRF1` exactly, whatever VALID, DIRTY
and LOCK are (41 section 3, R113): after the miss that way holds the line of the access (R117, R118; D12, log 14)
and its own LRF is flipped, and the other way is as it was. -/
def Obligations.VictimIsXorOfLrf : Prop :=
  ∀ (s t : State) (i : Instr) (w : Way), s.cached i → ¬ s.hits i → exec i s = .next t →
    (w = 1 ↔ (s.tag (s.setIx i) 0).lrf ≠ (s.tag (s.setIx i) 1).lrf) →
    (t.tag (s.setIx i) w).valid = true ∧ (t.tag (s.setIx i) w).pfn = pfnOf (s.pa i) ∧
    (t.tag (s.setIx i) w).lrf = !(s.tag (s.setIx i) w).lrf ∧
    t.tag (s.setIx i) (1 - w) = s.tag (s.setIx i) (1 - w) ∧
    t.line (s.setIx i) (1 - w) = s.line (s.setIx i) (1 - w)

/-- After a miss the next victim of the set is the other way, so that fills alternate (41 section 5, R121;
D12). -/
def Obligations.FillsAlternate : Prop :=
  ∀ (s t : State) (i : Instr), s.cached i → ¬ s.hits i → exec i s = .next t →
    t.victim (s.setIx i) = 1 - s.victim (s.setIx i)

/-- A miss whose victim is dirty and valid, on plain RAM, puts all 64 bytes of the victim's line in PM at the
line address of the victim's tag and set, whatever PM held there (41 sections 3 and 6). -/
def Obligations.MissWritesBackTheWholeLine : Prop :=
  ∀ (s t : State) (i : Instr), s.cached i → ¬ s.hits i → s.writesBack (s.setIx i) →
    exec i s = .next t →
    ∀ k (hk : k < 64), t.pm.read ((lineAddr (s.victimTag (s.setIx i)).pfn (s.setIx i)).toNat + k) =
      (s.line (s.setIx i) (s.victim (s.setIx i)))[k]

/-- PM is only updated at eviction (20 section 7): a request served by the cache that hits leaves PM alone; one
that misses changes it only if its victim is DIRTY and VALID, and then, the victim's page being plain RAM
(41 section 6; D20), PM receives the victim's 64 bytes and no other change. -/
def Obligations.MemoryUpdatedOnlyAtEviction : Prop :=
  ∀ (s t : State) (i : Instr), s.cached i → exec i s = .next t →
    (s.hits i → t.pm = s.pm) ∧
    (¬ s.hits i →
      ¬ ((s.victimTag (s.setIx i)).dirty = true ∧ (s.victimTag (s.setIx i)).valid = true) →
      t.pm = s.pm) ∧
    (¬ s.hits i → (s.victimTag (s.setIx i)).dirty = true → (s.victimTag (s.setIx i)).valid = true →
      s.backed (s.victimTag (s.setIx i)).pfn = true →
      ∀ b, t.pm.read b =
        if s.victimLine (s.setIx i) ≤ b ∧ b < s.victimLine (s.setIx i) + 64 then
          (s.line (s.setIx i) (s.victim (s.setIx i)))[b - s.victimLine (s.setIx i)]?.getD 0
        else s.pm.read b)

/-- A dirty victim whose page is no longer plain RAM: under `refuse` the operation is refused with
`WritebackUnbacked` (41 section 6; D20). -/
def Obligations.StrandedVictimRefused : Prop :=
  ∀ (s : State) (i : Instr), s.presentable i → s.cached i → ¬ s.hits i →
    s.strandedVictim (s.setIx i) → s.params.wbPolicy = .refuse →
    exec i s = .refused .writebackUnbacked

/-- A dirty victim whose page is no longer plain RAM: under `drop` the operation completes, PM keeps every
byte and the new line takes the way (41 section 6; D20). -/
def Obligations.StrandedVictimDropped : Prop :=
  ∀ (s : State) (i : Instr), s.presentable i → s.cached i → ¬ s.hits i →
    s.strandedVictim (s.setIx i) → s.params.wbPolicy = .drop →
    ∃ t, exec i s = .next t ∧ t.pm = s.pm ∧
      (t.tag (s.setIx i) (s.victim (s.setIx i))).pfn = pfnOf (s.pa i) ∧
      (t.tag (s.setIx i) (s.victim (s.setIx i))).dirty = i.isWrite

/-! ## Refusals -/

/-- A misaligned operation is refused whichever path it would have taken and whatever its page
(20 section 3; 60 section 4; D9, D29). -/
def Obligations.MisalignedRefused : Prop :=
  ∀ (s : State) (i : Instr), i.aligned = false → exec i s = .refused .misaligned

/-- An aligned operation on a page that is not plain RAM breaks the premise of 30 section 2: the model
gives it no meaning (93 V7; log 4). -/
def Obligations.PageNotRamStops : Prop :=
  ∀ (s : State) (i : Instr), i.aligned = true → s.backed (pfnOf (s.pa i)) = false →
    exec i s = .refused .pageNotRam

/-- A step that answers `Refused(reason)` to a request has changed nothing but the ports: all or nothing
(60 sections 3 and 5; log 3). -/
def Obligations.RefusedRequestsChangeNothing : Prop :=
  ∀ (s t : State) (r : Request) (rest : List Input) (why : RefuseReason),
    s.inputs = .request r :: rest → step s = .next t → t.response = some (.refused why) →
    t = (s.setInputs rest).respond (.refused why)

/-! ## Consistency between the cache and PM -/

/-- A write through the cache is seen at once by every read through the cache whose bytes it covers,
through any virtual address of the same physical bytes and at any width (20 sections 2 and 7, R56, R66,
R72; D8). -/
def Obligations.CachedReadsSeeCachedWrite : Prop :=
  ∀ (s t : State) (i j : Instr) (d : Nat),
    i.isWrite = true → s.cached i → exec i s = .next t →
    j.isWrite = false → t.presentable j → t.cached j →
    (t.pa j).toNat = (s.pa i).toNat + d → d + j.bytes ≤ i.bytes →
    ∃ r, exec j t = .next (t.respond r) ∧ r.dataOf j.bytes fun k => storedByte i (d + k)

/-- A write through the cache is not seen by a read of the same line that goes round the cache: it returns
the bytes PM held before the write (20 section 7, R69; 70 R184). -/
def Obligations.BypassReadsSeeStaleMemory : Prop :=
  ∀ (s t : State) (i j : Instr),
    i.isWrite = true → s.cached i → exec i s = .next t →
    j.isWrite = false → t.presentable j → ¬ t.cached j → lineBase (t.pa j) = lineBase (s.pa i) →
    ∃ r, exec j t = .next (t.respond r) ∧
      r.dataOf j.bytes fun k => s.pm.read ((t.pa j).toNat + k)

/-- What goes round the block altogether (instruction fetch, debugger peek, fastmem, another bus master)
sees of the line a write through the cache has written just what it saw before the write: the bytes of PM
then, which are all in the physical address space (20 section 8, R76; 70 R184, R193; D22, D24). -/
def Obligations.PeeksDoNotSeeCachedWrite : Prop :=
  ∀ (s t : State) (i : Instr) (a : PA) (n : Nat),
    i.isWrite = true → s.cached i → exec i s = .next t →
    (lineBase (s.pa i)).toNat ≤ a.toNat → a.toNat + n ≤ (lineBase (s.pa i)).toNat + 64 →
    t.peek a n = s.peek a n ∧ (s.params.wf → t.peek a n = some (s.pm.readBytes a.toNat n))

/-- Whatever PM is changed to, by whatever agent, a read that hits answers the same (20 section 7, R70;
70 R185; D23). -/
def Obligations.ReadHitsIgnoreMemory : Prop :=
  ∀ (s : State) (i : Instr) (m : Memory),
    i.isWrite = false → s.presentable i → s.cached i → s.hits i →
    ∃ r, exec i s = .next (s.respond r) ∧ exec i (s.setPm m) = .next ((s.setPm m).respond r)

/-- What the sets other than its own hold is nothing to an operation: two states that agree on PM, the
inputs and the operation's set give the same response, the same PM and the same set (20 section 1, R53;
41 section 5, R121). -/
def Obligations.OtherSetsDoNotMatter : Prop :=
  ∀ (s s' t : State) (i : Instr),
    s'.pm = s.pm → s.sameInputs s' →
    (∀ w, s'.tag (s.setIx i) w = s.tag (s.setIx i) w ∧ s'.line (s.setIx i) w = s.line (s.setIx i) w) →
    exec i s = .next t →
    ∃ t', exec i s' = .next t' ∧ t'.response = t.response ∧ t'.pm = t.pm ∧
      ∀ w, t'.tag (s.setIx i) w = t.tag (s.setIx i) w ∧ t'.line (s.setIx i) w = t.line (s.setIx i) w

/-- The flag positions cannot be observed: changing them changes nothing an operation does
(30 section 4, R89; D4). -/
def Obligations.FlagPositionsUnobservable : Prop :=
  ∀ (s : State) (i : Instr) (p : Params),
    p.paBits = s.params.paBits → p.wbPolicy = s.params.wbPolicy →
    (∀ t, exec i s = .next t → exec i { s with params := p } = .next { t with params := p }) ∧
    (∀ q, exec i s = .refused q → exec i { s with params := p } = .refused q)

/-- EVICT2 (30 section 5, R94; 41 R122): two byte reads that pass the filter and miss, to two different
lines of one set with its ways distinct and on plain RAM, leave exactly those two lines resident there, and
every dirty line that was resident is in PM. -/
def Obligations.EvictTwoReplacesTheSet : Prop :=
  ∀ (s : State) (vaA vaB : VA) (pfnA pfnB : Pfn) (set : SetIx),
    s.presentable (.rd8 false vaA pfnA) → s.presentable (.rd8 false vaB pfnB) →
    s.cached (.rd8 false vaA pfnA) → s.cached (.rd8 false vaB pfnB) →
    s.setIx (.rd8 false vaA pfnA) = set → s.setIx (.rd8 false vaB pfnB) = set →
    pfnOf (s.pa (.rd8 false vaA pfnA)) ≠ pfnOf (s.pa (.rd8 false vaB pfnB)) →
    ¬ s.hits (.rd8 false vaA pfnA) → ¬ s.hits (.rd8 false vaB pfnB) →
    (∀ w, s.backed (s.tag set w).pfn = true) →
    ¬ ((s.tag set 0).valid = true ∧ (s.tag set 1).valid = true ∧ (s.tag set 0).pfn = (s.tag set 1).pfn) →
    ∃ u, execAll (evict2 vaA pfnA vaB pfnB) s = .next u ∧
      (∀ pfn, u.resident pfn set ↔
        pfn = pfnOf (s.pa (.rd8 false vaA pfnA)) ∨ pfn = pfnOf (s.pa (.rd8 false vaB pfnB))) ∧
      ∀ w, (s.tag set w).dirty = true → (s.tag set w).valid = true →
        ∀ k (hk : k < 64), u.pm.read ((lineAddr (s.tag set w).pfn set).toNat + k) = (s.line set w)[k]

/-- Three byte reads through the cache of three different lines other than X, in X's set, always evict X
and bring its dirty bytes to PM, whatever else is resident and whatever the LRF flags are
(70 section 3, R188; 90 C11). -/
def Obligations.ThreeReadsEvictALine : Prop :=
  ∀ (s : State) (set : SetIx) (w : Way) (x : Pfn) (va : Fin 3 → VA) (pfn : Fin 3 → Pfn),
    (s.tag set w).valid = true → (s.tag set w).dirty = true → (s.tag set w).pfn = x →
    ¬ ((s.tag set 0).valid = true ∧ (s.tag set 1).valid = true ∧ (s.tag set 0).pfn = (s.tag set 1).pfn) →
    (∀ q, s.backed q = true) →
    (∀ k, s.cached (.rd8 false (va k) (pfn k)) ∧ s.setIx (.rd8 false (va k) (pfn k)) = set ∧
      pfnOf (s.pa (.rd8 false (va k) (pfn k))) ≠ x) →
    (∀ k l, k ≠ l →
      pfnOf (s.pa (.rd8 false (va k) (pfn k))) ≠ pfnOf (s.pa (.rd8 false (va l) (pfn l)))) →
    ∃ t u v, exec (.rd8 false (va 0) (pfn 0)) s = .next t ∧ exec (.rd8 false (va 1) (pfn 1)) t = .next u ∧
      exec (.rd8 false (va 2) (pfn 2)) u = .next v ∧ ¬ v.resident x set ∧
      ∀ k (hk : k < 64), v.pm.read ((lineAddr x set).toNat + k) = (s.line set w)[k]

/-! ## RESET, Init, Shutdown and the environment -/

/-- RESET, as the next input, in any state, after Shutdown too (log 18): every tag entry has VALID, DIRTY, LRF,
LOCK, the reserved bits and the page frame 0; PM, the filter's inputs, the parameters and the response are
untouched; dirty lines are not written back (44 section 1; 10 section 9; D18, D19). Init is RESET, at a block that
is running as at one that is not (44 section 1, R152). -/
def Obligations.ResetEmptiesTheArrays : Prop :=
  (∀ (s : State) (rest : List Input), s.inputs = .control .reset :: rest →
    ∃ t, step s = .next t ∧ t.inputs = rest ∧ t.pm = s.pm ∧ t.cacheEnable = s.cacheEnable ∧
      t.tlb = s.tlb ∧ t.unbacked = s.unbacked ∧ t.params = s.params ∧ t.response = s.response ∧
      t.running = true ∧
      ∀ j v, (t.tag j v).valid = false ∧ (t.tag j v).dirty = false ∧ (t.tag j v).lrf = false ∧
        (t.tag j v).lock = false ∧ (t.tag j v).rsv = 0 ∧ (t.tag j v).pfn = 0) ∧
  ∀ s : State, execControl .init s = execControl .reset s

/-- After RESET every request misses, page 0 included, and a read through the cache returns PM's bytes:
what was only in the cache is lost (44 section 1, R151; 42 section 3, R136; D19). -/
def Obligations.AfterResetReadsReturnMemory : Prop :=
  ∀ (s t : State) (i : Instr), execControl .reset s = .next t →
    ¬ t.hits i ∧
    (i.isWrite = false → t.presentable i → t.cached i →
      ∃ u r, exec i t = .next u ∧ u.response = some r ∧
        r.dataOf i.bytes fun k => s.pm.read ((s.pa i).toNat + k))

/-- The state right after reset (10 section 9, R38; D18). The data array, PM, the filter's inputs, the ports
and the parameters stand at the model's choices (logs 1, 5, 7, 8, 9, 24). -/
def Obligations.StateAtReset : Prop :=
  (∀ j v, State.reset.tag j v =
    { pfn := 0, dirty := false, valid := false, lrf := false, lock := false, rsv := 0 }) ∧
  (∀ j v k (hk : k < 64), (State.reset.line j v)[k] = 0#8) ∧
  (∀ a, State.reset.pm.read a = 0#8) ∧
  State.reset.cacheEnable = false ∧ (∀ va, tlbCacheable State.reset.tlb va = false) ∧
  (∀ q, State.reset.backed q = true) ∧ State.reset.inputs = [] ∧ State.reset.response = none ∧
  State.reset.running = true ∧ State.reset.params.paBits = 32 ∧
  State.reset.params.wbPolicy = .refuse

/-- Shutdown ends the block and does nothing else: PM and the arrays are as they were, a later request is a
fault, and Init, which is RESET, brings up an empty block (44 section 1, R152; log 18). -/
def Obligations.ShutdownEndsTheBlock : Prop :=
  ∀ s : State, ∃ t, execControl .shutdown s = .next t ∧ t = { s with running := false } ∧
    (∀ r rest, t.inputs = .request r :: rest → step t = .fault .afterShutdown) ∧
    ∃ u, execControl .init t = .next u ∧ execControl .reset t = .next u ∧ u.running = true ∧ u.pm = s.pm ∧
      ∀ j v, (u.tag j v).valid = false

/-- The environment's actions between two requests (enabling or disabling the cache, TLB changes, writes to PM by
other agents, pages ceasing to be plain RAM, Shutdown) change no tag and no line, no response, no pending input
and no parameter; and PM, `cache_enable`, the TLB, the list of pages and the block's existence each change only
by the action that is about it (44 section 2, R154; 70 R190, R191; D23, D27). Shutdown leaves the arrays and PM as
they are and ends the block's existence alone (44 section 1, R152; D19; log 18). -/
def Obligations.EnvironmentLeavesArraysAlone : Prop :=
  ∀ (s t : State) (c : Control), c ≠ .reset → c ≠ .init → (∀ image, c ≠ .loadState image) →
    execControl c s = .next t →
    t.tags = s.tags ∧ t.data = s.data ∧ t.response = s.response ∧ t.inputs = s.inputs ∧
    t.params = s.params ∧
    ((∀ a bytes, c ≠ .writePm a bytes) → t.pm = s.pm) ∧
    ((∀ on, c ≠ .setCacheEnable on) → t.cacheEnable = s.cacheEnable) ∧
    ((∀ k e, c ≠ .setTlb k e) → (∀ ranges, c ≠ .setCacheable ranges) → t.tlb = s.tlb) ∧
    ((∀ pfn ram, c ≠ .setBacked pfn ram) → t.unbacked = s.unbacked) ∧
    (c ≠ .shutdown → t.running = s.running)

/-- Another agent's write to PM: the bytes, no other byte, nothing else; beyond the physical address space it
is a fault (10 section 6, R34; 30 section 5; log 23). -/
def Obligations.AgentWritesReachMemoryOnly : Prop :=
  ∀ (s : State) (a : PA) (bytes : List Byte),
    (a.toNat + bytes.length ≤ 2 ^ s.params.paBits →
      ∃ m, execControl (.writePm a bytes) s = .next { s with pm := m } ∧
        (∀ k (hk : k < bytes.length), m.read (a.toNat + k) = bytes[k]) ∧
        ∀ b, (b < a.toNat ∨ a.toNat + bytes.length ≤ b) → m.read b = s.pm.read b) ∧
    (2 ^ s.params.paBits < a.toNat + bytes.length →
      execControl (.writePm a bytes) s = .fault .outsideMemory)

/-- A change of one TLB entry changes that entry, leaves the other 47 alone, and the TLB is all that has changed
(44 section 2, R154; D27). -/
def Obligations.TlbEntryChangeIsLocal : Prop :=
  ∀ (s : State) (k : Fin 48) (e : TlbEntry),
    ∃ tlb, execControl (.setTlb k e) s = .next { s with tlb := tlb } ∧
      ∀ j : Fin 48, tlb[j.val] = if j = k then e else s.tlb[j.val]

/-- A page becoming, or ceasing to be, plain RAM changes the answer of `backed` for that page alone, and the
list behind `backed` is all that has changed (41 section 6, R123; 70 R191; D20). Where the named frame fits the
port that page is the frame itself; of a wider frame the bits above `TAG_BITS` are dropped, which is the model's
choice (log 10). -/
def Obligations.BackedChangeIsLocal : Prop :=
  ∀ (s : State) (pfn : Pfn) (ram : Bool),
    ∃ ps, execControl (.setBacked pfn ram) s = .next { s with unbacked := ps } ∧
      (pfn.toNat < 2 ^ (s.params.paBits - 12) →
        ∀ q, { s with unbacked := ps }.backed q = if q = pfn then ram else s.backed q) ∧
      ∀ q, { s with unbacked := ps }.backed q = if q = clipPfn s.params pfn then ram else s.backed q

/-- Loading a save state (log 22, after D25), after Shutdown too (log 18): the block is as RESET leaves it and PM
is the image, each address reading as the first entry the image has for it (log 22) and an address it does not
list as an unwritten byte (log 5). The filter's inputs, the other inputs, the response and the parameters stay.
An image with an address beyond the physical address space is a fault (10 section 6, R34; log 23). -/
def Obligations.SaveStateLoadReplacesMemory : Prop :=
  ∀ (s : State) (image : List Host.Cell),
    ((∀ c ∈ image, c.1 < 2 ^ s.params.paBits) →
      ∃ t, execControl (.loadState image) s = .next t ∧
        (∀ j v, t.tag j v = TagEntry.empty) ∧
        (∀ before c behind, image = before ++ c :: behind → (∀ d ∈ before, d.1 ≠ c.1) → t.pm.read c.1 = c.2) ∧
        (∀ a, (∀ c ∈ image, c.1 ≠ a) → t.pm.read a = unlistedByte) ∧
        t.tlb = s.tlb ∧ t.cacheEnable = s.cacheEnable ∧ t.unbacked = s.unbacked ∧ t.inputs = s.inputs ∧
        t.response = s.response ∧ t.params = s.params ∧ t.running = true) ∧
    (∀ c ∈ image, 2 ^ s.params.paBits ≤ c.1 →
      execControl (.loadState image) s = .fault .outsideMemory)

/-! ## Invariants of every step -/

/-- No step changes the parameters (00 section 4; log 9). -/
def Obligations.ParametersNeverChange : Prop :=
  ∀ s t : State, step s = .next t → t.params = s.params

/-- The state after reset meets the invariant (10 section 7; logs 5, 8, 9). -/
def Obligations.ResetMeetsInvariant : Prop :=
  State.reset.Inv

/-- Every step keeps the invariant: PM canonical and inside the physical address space, at most one way of a
set claiming a line, DIRTY only on valid lines, LOCK and the reserved bits 0, the first two fills of a set
going to way 0 and then way 1, tags of `TAG_BITS` bits (10 section 7, R35, R36; 20 section 7). -/
def Obligations.StepKeepsInvariant : Prop :=
  ∀ s t : State, s.Inv → step s = .next t → t.Inv
end

