-- ==== Sys2Proof/Laws/Address.lean ====
section
/-! SUPPORT. Laws of addresses (`spec/00_scope.md` R11, `spec/20_memory.md` R51, R58, `spec/44_system.md`
R156). -/

namespace Sys2Proof.Machine

theorem clipPfn_toNat (p : Params) (pfn : Pfn) :
    (clipPfn p pfn).toNat = pfn.toNat % 2 ^ (p.paBits - 12) := by
  have h := pfn.isLt
  have := Nat.mod_le pfn.toNat (2 ^ (p.paBits - 12))
  simp only [clipPfn, BitVec.toNat_setWidth]
  omega

theorem clipPfn_lt (p : Params) (pfn : Pfn) : (clipPfn p pfn).toNat < 2 ^ (p.paBits - 12) := by
  rw [clipPfn_toNat]
  exact Nat.mod_lt _ (Nat.two_pow_pos _)

/-- A frame that fits the port's wires is presented whole. -/
theorem clipPfn_eq (p : Params) (pfn : Pfn) (h : pfn.toNat < 2 ^ (p.paBits - 12)) :
    clipPfn p pfn = pfn := by
  apply BitVec.eq_of_toNat_eq
  rw [clipPfn_toNat, Nat.mod_eq_of_lt h]

theorem pfnOf_physAddr (p : Params) (pfn : Pfn) (va : VA) :
    pfnOf (physAddr p pfn va) = clipPfn p pfn := by
  apply BitVec.eq_of_getLsbD_eq
  intro i hi
  simp only [pfnOf, physAddr, BitVec.getLsbD_extractLsb', BitVec.getLsbD_append]
  simp [hi]

theorem setOf_physAddr (p : Params) (pfn : Pfn) (va : VA) :
    setOf (physAddr p pfn va) = va.extractLsb' 6 6 := by
  apply BitVec.eq_of_getLsbD_eq
  intro i hi
  simp only [setOf, physAddr, BitVec.getLsbD_extractLsb', BitVec.getLsbD_append]
  simp [hi, show 6 + i < 12 by omega]

theorem offOf_physAddr (p : Params) (pfn : Pfn) (va : VA) :
    offOf (physAddr p pfn va) = va.extractLsb' 0 6 := by
  apply BitVec.eq_of_getLsbD_eq
  intro i hi
  simp only [offOf, physAddr, BitVec.getLsbD_extractLsb', BitVec.getLsbD_append]
  simp [hi, show i < 12 by omega]

/-- The number an address is, by its fields. -/
theorem toNat_fields (pa : PA) :
    pa.toNat = (pfnOf pa).toNat * 4096 + (setOf pa).toNat * 64 + (offOf pa).toNat := by
  have := pa.isLt
  simp only [pfnOf, setOf, offOf, BitVec.extractLsb'_toNat, Nat.shiftRight_eq_div_pow]
  omega

theorem lineAddr_toNat (pfn : Pfn) (set : SetIx) :
    (lineAddr pfn set).toNat = pfn.toNat * 4096 + set.toNat * 64 := by
  have h1 := pfn.isLt
  have h2 := set.isLt
  simp only [lineAddr, BitVec.toNat_append, BitVec.toNat_ofNat]
  rw [← Nat.shiftLeft_add_eq_or_of_lt (by omega), ← Nat.shiftLeft_add_eq_or_of_lt (by omega)]
  simp only [Nat.shiftLeft_eq]
  omega

/-- The bits of the mask 0x3F. -/
theorem flagMask_bit (i : Nat) (h : i < 32) : (0x3F#32).getLsbD i = decide (i < 6) := by
  revert i; decide

/-- The line base of an address is the line address of its frame and set (R11, R90). -/
theorem lineBase_eq (pa : PA) : lineBase pa = lineAddr (pfnOf pa) (setOf pa) := by
  apply BitVec.eq_of_getLsbD_eq
  intro i hi
  unfold lineBase lineAddr pfnOf setOf
  rw [BitVec.getLsbD_and, BitVec.getLsbD_not, BitVec.getLsbD_append, BitVec.getLsbD_append,
    flagMask_bit i hi, BitVec.getLsbD_extractLsb', BitVec.getLsbD_extractLsb']
  by_cases h6 : i < 6
  · simp [h6]
  · by_cases h12 : i - 6 < 6
    · simp [h6, h12, hi, show 6 + (i - 6) = i by omega]
    · simp [h6, h12, hi, show i - 6 - 6 < 20 by omega, show 12 + (i - 6 - 6) = i by omega]

theorem toNat_eq_lineBase_add (pa : PA) : pa.toNat = (lineBase pa).toNat + (offOf pa).toNat := by
  rw [lineBase_eq, lineAddr_toNat]
  exact toNat_fields pa

/-- An aligned access stays in its line (R58). -/
theorem off_add_le (p : Params) (pfn : Pfn) (va : VA) (n : Nat) (h : alignedTo n va = true)
    (hn : n ∣ 64) : (offOf (physAddr p pfn va)).toNat + n ≤ 64 := by
  simp only [alignedTo, beq_iff_eq] at h
  have h0 : 0 < n := Nat.pos_of_dvd_of_pos hn (by omega)
  have ho : (offOf (physAddr p pfn va)).toNat = va.toNat % 64 := by
    rw [offOf_physAddr]
    simp [BitVec.extractLsb'_toNat]
  obtain ⟨k, hk⟩ := hn
  have hm : va.toNat % 64 % n = 0 := by
    rw [hk, Nat.mod_mul_right_mod, h]
  rw [ho]
  obtain ⟨q, hq⟩ := Nat.dvd_of_mod_eq_zero hm
  have hlt : va.toNat % 64 < 64 := Nat.mod_lt _ (by omega)
  rw [hq]
  rw [hq] at hlt
  have : q < k := by
    rw [hk] at hlt
    exact Nat.lt_of_mul_lt_mul_left hlt
  calc n * q + n = n * (q + 1) := by ring
    _ ≤ n * k := Nat.mul_le_mul_left _ this
    _ = 64 := hk.symm

/-- Two lines with different frames, in one set, have no byte in common. -/
theorem lineAddr_disjoint {a b : Pfn} (set : SetIx) (h : a ≠ b) :
    (lineAddr a set).toNat + 64 ≤ (lineAddr b set).toNat ∨
      (lineAddr b set).toNat + 64 ≤ (lineAddr a set).toNat := by
  have : a.toNat ≠ b.toNat := fun h' => h (BitVec.eq_of_toNat_eq h')
  rw [lineAddr_toNat, lineAddr_toNat]
  omega

/-- A line lies inside the physical address space when its frame fits the tag. -/
theorem lineAddr_bound {p : Params} {pfn : Pfn} (set : SetIx) (hp : 12 ≤ p.paBits)
    (h : pfn.toNat < 2 ^ (p.paBits - 12)) : (lineAddr pfn set).toNat + 64 ≤ 2 ^ p.paBits := by
  have hs := set.isLt
  have : 2 ^ p.paBits = 2 ^ (p.paBits - 12) * 4096 := by
    rw [show (4096 : Nat) = 2 ^ 12 by rfl, ← Nat.pow_add]
    congr 1
    omega
  rw [lineAddr_toNat]
  omega

/-- An aligned access lies inside the physical address space. -/
theorem access_bound {p : Params} (pfn : Pfn) (va : VA) (n : Nat) (hp : 12 ≤ p.paBits)
    (h : alignedTo n va = true) (hn : n ∣ 64) :
    (physAddr p pfn va).toNat + n ≤ 2 ^ p.paBits := by
  have h1 := off_add_le p pfn va n h hn
  have h2 := lineAddr_bound (p := p) (pfn := clipPfn p pfn) (setOf (physAddr p pfn va)) hp
    (clipPfn_lt p pfn)
  rw [toNat_eq_lineBase_add, lineBase_eq, pfnOf_physAddr]
  omega

end Sys2Proof.Machine
end

