-- ==== Sys2Proof/Laws/Memory.lean ====
section
/-! SUPPORT. Laws of the backing store: a read after a write, and the canonical form. -/

namespace Sys2Proof.Machine

/-- A byte written is the byte read. -/
@[simp] theorem Memory.read_write_same (m : Memory) (a : Nat) (b : Byte) :
    (m.write a b).read a = b := by
  have h1 : (m.filter fun c => decide (c.1 < a)).find? (fun c => c.1 == a) = none := by
    simp only [List.find?_eq_none, List.mem_filter, decide_eq_true_eq, beq_iff_eq]
    omega
  have h2 : (m.filter fun c => decide (a < c.1)).find? (fun c => c.1 == a) = none := by
    simp only [List.find?_eq_none, List.mem_filter, decide_eq_true_eq, beq_iff_eq]
    omega
  unfold Memory.read Memory.write Memory.cell
  rw [List.find?_append, List.find?_append, h1, h2]
  by_cases hb : b = unlistedByte <;> simp [hb]

/-- The entries at an address survive a filter that keeps it. -/
theorem find?_filter_keep (m : Memory) (p : Host.Cell → Bool) (x : Nat)
    (hp : ∀ c : Host.Cell, c.1 = x → p c = true) :
    (m.filter p).find? (fun c => c.1 == x) = m.find? (fun c => c.1 == x) := by
  rw [List.find?_filter]
  congr 1
  funext c
  by_cases h : c.1 = x <;> simp [h, hp]

/-- A filter that drops an address leaves none of its entries. -/
theorem find?_filter_drop (m : Memory) (p : Host.Cell → Bool) (x : Nat)
    (hp : ∀ c : Host.Cell, c.1 = x → p c = false) :
    (m.filter p).find? (fun c => c.1 == x) = none := by
  simp only [List.find?_eq_none, List.mem_filter, beq_iff_eq]
  intro c hc h
  simp [hp c h] at hc

/-- A write leaves every other byte alone. -/
theorem Memory.read_write_other (m : Memory) {a x : Nat} (b : Byte) (h : x ≠ a) :
    (m.write a b).read x = m.read x := by
  have hc : (Memory.cell a b).find? (fun c => c.1 == x) = none := by
    unfold Memory.cell
    split <;> simp
    omega
  unfold Memory.read Memory.write
  rw [List.find?_append, List.find?_append, hc]
  rcases Nat.lt_or_gt_of_ne h with hlt | hgt
  · rw [find?_filter_keep m _ x (by intro c hc; simp; omega),
      find?_filter_drop m _ x (by intro c hc; simp; omega)]
    simp
  · rw [find?_filter_drop m _ x (by intro c hc; simp; omega),
      find?_filter_keep m _ x (by intro c hc; simp; omega)]
    simp

theorem Memory.read_write (m : Memory) (a x : Nat) (b : Byte) :
    (m.write a b).read x = if x = a then b else m.read x := by
  split
  · subst x; simp
  · exact Memory.read_write_other m b ‹_›

/-- What a row of written bytes leaves at an address. -/
theorem Memory.read_writeBytes (m : Memory) (a x : Nat) (bs : List Byte) :
    (m.writeBytes a bs).read x =
      if h : a ≤ x ∧ x - a < bs.length then bs[x - a]'h.2 else m.read x := by
  induction bs generalizing m a with
  | nil => simp [Memory.writeBytes]
  | cons b bs ih =>
    rw [Memory.writeBytes, ih, Memory.read_write]
    rcases Nat.lt_trichotomy x a with hlt | heq | hgt
    · rw [dif_neg (by omega), if_neg (by omega), dif_neg (by simp; omega)]
    · subst heq
      simp
    · have hx : x - a = (x - (a + 1)) + 1 := by omega
      by_cases hl : x - (a + 1) < bs.length
      · rw [dif_pos ⟨by omega, hl⟩, dif_pos ⟨by omega, by simp; omega⟩]
        simp [hx]
      · rw [dif_neg (by omega), if_neg (by omega), dif_neg (by simp; omega)]

/-- Bytes outside a row of written bytes are unchanged. -/
theorem Memory.read_writeBytes_outside (m : Memory) {a x : Nat} (bs : List Byte)
    (h : x < a ∨ a + bs.length ≤ x) : (m.writeBytes a bs).read x = m.read x := by
  rw [Memory.read_writeBytes, dif_neg (by omega)]

/-- A byte of a row of written bytes. -/
theorem Memory.read_writeBytes_inside (m : Memory) (a k : Nat) (bs : List Byte) (h : k < bs.length) :
    (m.writeBytes a bs).read (a + k) = bs[k] := by
  rw [Memory.read_writeBytes, dif_pos ⟨by omega, by omega⟩]
  simp

/-- A byte of a line written back (R115). -/
theorem Memory.read_writeLine_inside (m : Memory) (a k : Nat) (l : Line) (h : k < 64) :
    (m.writeLine a l).read (a + k) = l[k] := by
  unfold Memory.writeLine
  rw [Memory.read_writeBytes_inside _ _ _ _ (by simpa using h)]
  simp

/-- Bytes outside a line written back are unchanged. -/
theorem Memory.read_writeLine_outside (m : Memory) {a x : Nat} (l : Line)
    (h : x < a ∨ a + 64 ≤ x) : (m.writeLine a l).read x = m.read x :=
  Memory.read_writeBytes_outside m _ (by simpa using h)

@[simp] theorem Memory.getElem_readLine (m : Memory) (a k : Nat) (h : k < 64) :
    (m.readLine a)[k] = m.read (a + k) := by
  simp [Memory.readLine]

@[simp] theorem Memory.length_readBytes (m : Memory) (a n : Nat) : (m.readBytes a n).length = n := by
  simp [Memory.readBytes]

@[simp] theorem Memory.getElem_readBytes (m : Memory) (a n k : Nat) (h : k < (m.readBytes a n).length) :
    (m.readBytes a n)[k] = m.read (a + k) := by
  simp [Memory.readBytes]

/-! The canonical form. -/

theorem Memory.cell_wf (a : Nat) (b : Byte) : Memory.wf (Memory.cell a b) := by
  unfold Memory.cell
  split <;> simp [Memory.wf]
  assumption

theorem Memory.mem_cell {a : Nat} {b : Byte} {c : Host.Cell} (h : c ∈ Memory.cell a b) : c.1 = a := by
  unfold Memory.cell at h
  split at h <;> simp at h
  simp [h]

/-- A write keeps the canonical form. -/
theorem Memory.write_wf {m : Memory} (h : m.wf) (a : Nat) (b : Byte) : (m.write a b).wf := by
  refine ⟨?_, ?_⟩
  · unfold Memory.write
    rw [List.pairwise_append, List.pairwise_append]
    refine ⟨h.1.filter _, ⟨(Memory.cell_wf a b).1, h.1.filter _, ?_⟩, ?_⟩
    · intro c hc d hd
      have := Memory.mem_cell hc
      simp at hd
      omega
    · intro c hc d hd
      simp only [List.mem_filter, decide_eq_true_eq, List.mem_append] at hc hd
      rcases hd with hd | hd
      · have := Memory.mem_cell hd
        omega
      · omega
  · intro c hc
    simp only [Memory.write, List.mem_append, List.mem_filter] at hc
    rcases hc with hc | hc | hc
    · exact h.2 c hc.1
    · exact (Memory.cell_wf a b).2 c hc
    · exact h.2 c hc.1

theorem Memory.write_below {m : Memory} {bound a : Nat} (h : m.below bound) (ha : a < bound) (b : Byte) :
    (m.write a b).below bound := by
  intro c hc
  simp only [Memory.write, List.mem_append, List.mem_filter] at hc
  rcases hc with hc | hc | hc
  · exact h c hc.1
  · have := Memory.mem_cell hc
    omega
  · exact h c hc.1

/-- A row of writes keeps the canonical form. -/
theorem Memory.writeBytes_wf {m : Memory} (h : m.wf) (a : Nat) (bs : List Byte) :
    (m.writeBytes a bs).wf := by
  induction bs generalizing m a with
  | nil => exact h
  | cons b bs ih => exact ih (Memory.write_wf h a b) (a + 1)

theorem Memory.writeBytes_below {m : Memory} {bound a : Nat} (h : m.below bound) (bs : List Byte)
    (ha : a + bs.length ≤ bound) : (m.writeBytes a bs).below bound := by
  induction bs generalizing m a with
  | nil => exact h
  | cons b bs ih =>
    simp only [List.length_cons] at ha
    exact ih (Memory.write_below h (by omega) b) (by omega)

theorem Memory.writeLine_wf {m : Memory} (h : m.wf) (a : Nat) (l : Line) : (m.writeLine a l).wf :=
  Memory.writeBytes_wf h a _

theorem Memory.writeLine_below {m : Memory} {bound a : Nat} (h : m.below bound) (l : Line)
    (ha : a + 64 ≤ bound) : (m.writeLine a l).below bound :=
  Memory.writeBytes_below h _ (by simpa using ha)

/-- A loaded image is in canonical form. -/
theorem Memory.ofImage_wf (image : List Host.Cell) : (Memory.ofImage image).wf := by
  induction image with
  | nil => simp [Memory.ofImage, Memory.wf]
  | cons c cs ih => exact Memory.write_wf ih _ _

theorem Memory.ofImage_below {bound : Nat} {image : List Host.Cell} (h : ∀ c ∈ image, c.1 < bound) :
    (Memory.ofImage image).below bound := by
  induction image with
  | nil => simp [Memory.ofImage]
  | cons c cs ih =>
    exact Memory.write_below (ih fun d hd => h d (List.mem_cons_of_mem _ hd))
      (h c (List.mem_cons_self ..)) _

/-! The list of pages that are not plain RAM. -/

theorem pagesErase_sorted {ps : List Nat} (h : ps.Pairwise (· < ·)) (k : Nat) :
    (pagesErase ps k).Pairwise (· < ·) := h.filter _

theorem pagesInsert_sorted {ps : List Nat} (h : ps.Pairwise (· < ·)) (k : Nat) :
    (pagesInsert ps k).Pairwise (· < ·) := by
  unfold pagesInsert
  rw [List.pairwise_append, List.pairwise_cons]
  refine ⟨h.filter _, ⟨fun a ha => by simp at ha; omega, h.filter _⟩, ?_⟩
  intro a ha b hb
  simp only [List.mem_filter, decide_eq_true_eq, List.mem_cons] at ha hb
  omega

theorem mem_pagesErase {ps : List Nat} {k j : Nat} : j ∈ pagesErase ps k ↔ j ∈ ps ∧ j ≠ k := by
  simp [pagesErase]

theorem mem_pagesInsert {ps : List Nat} {k j : Nat} : j ∈ pagesInsert ps k ↔ j ∈ ps ∨ j = k := by
  simp only [pagesInsert, List.mem_append, List.mem_filter, decide_eq_true_eq, List.mem_cons]
  constructor
  · rintro (h | h | h)
    · exact .inl h.1
    · exact .inr h
    · exact .inl h.1
  · rintro (h | h)
    · rcases Nat.lt_trichotomy j k with hl | he | hg
      · exact .inl ⟨h, hl⟩
      · exact .inr (.inl he)
      · exact .inr (.inr ⟨h, hg⟩)
    · exact .inr (.inl h)

end Sys2Proof.Machine
end

