-- ==== Sys2Proof/Laws/State.lean ====
section
/-! SUPPORT. What each update of the state leaves in each field, and reading the arrays after writing them. -/

namespace Sys2Proof.Machine

variable (s : State)

/-! The fields after `setTag`. -/

@[simp] theorem State.setTag_data (i : SetIx) (w : Way) (e : TagEntry) : (s.setTag i w e).data = s.data := rfl
@[simp] theorem State.setTag_pm (i : SetIx) (w : Way) (e : TagEntry) : (s.setTag i w e).pm = s.pm := rfl
@[simp] theorem State.setTag_cacheEnable (i : SetIx) (w : Way) (e : TagEntry) : (s.setTag i w e).cacheEnable = s.cacheEnable := rfl
@[simp] theorem State.setTag_tlb (i : SetIx) (w : Way) (e : TagEntry) : (s.setTag i w e).tlb = s.tlb := rfl
@[simp] theorem State.setTag_unbacked (i : SetIx) (w : Way) (e : TagEntry) : (s.setTag i w e).unbacked = s.unbacked := rfl
@[simp] theorem State.setTag_inputs (i : SetIx) (w : Way) (e : TagEntry) : (s.setTag i w e).inputs = s.inputs := rfl
@[simp] theorem State.setTag_response (i : SetIx) (w : Way) (e : TagEntry) : (s.setTag i w e).response = s.response := rfl
@[simp] theorem State.setTag_running (i : SetIx) (w : Way) (e : TagEntry) : (s.setTag i w e).running = s.running := rfl
@[simp] theorem State.setTag_params (i : SetIx) (w : Way) (e : TagEntry) : (s.setTag i w e).params = s.params := rfl

/-! The fields after `setLine`. -/

@[simp] theorem State.setLine_tags (i : SetIx) (w : Way) (l : Line) : (s.setLine i w l).tags = s.tags := rfl
@[simp] theorem State.setLine_pm (i : SetIx) (w : Way) (l : Line) : (s.setLine i w l).pm = s.pm := rfl
@[simp] theorem State.setLine_cacheEnable (i : SetIx) (w : Way) (l : Line) : (s.setLine i w l).cacheEnable = s.cacheEnable := rfl
@[simp] theorem State.setLine_tlb (i : SetIx) (w : Way) (l : Line) : (s.setLine i w l).tlb = s.tlb := rfl
@[simp] theorem State.setLine_unbacked (i : SetIx) (w : Way) (l : Line) : (s.setLine i w l).unbacked = s.unbacked := rfl
@[simp] theorem State.setLine_inputs (i : SetIx) (w : Way) (l : Line) : (s.setLine i w l).inputs = s.inputs := rfl
@[simp] theorem State.setLine_response (i : SetIx) (w : Way) (l : Line) : (s.setLine i w l).response = s.response := rfl
@[simp] theorem State.setLine_running (i : SetIx) (w : Way) (l : Line) : (s.setLine i w l).running = s.running := rfl
@[simp] theorem State.setLine_params (i : SetIx) (w : Way) (l : Line) : (s.setLine i w l).params = s.params := rfl

/-! The fields after `setPm`. -/

@[simp] theorem State.setPm_tags (m : Memory) : (s.setPm m).tags = s.tags := rfl
@[simp] theorem State.setPm_data (m : Memory) : (s.setPm m).data = s.data := rfl
@[simp] theorem State.setPm_cacheEnable (m : Memory) : (s.setPm m).cacheEnable = s.cacheEnable := rfl
@[simp] theorem State.setPm_tlb (m : Memory) : (s.setPm m).tlb = s.tlb := rfl
@[simp] theorem State.setPm_unbacked (m : Memory) : (s.setPm m).unbacked = s.unbacked := rfl
@[simp] theorem State.setPm_inputs (m : Memory) : (s.setPm m).inputs = s.inputs := rfl
@[simp] theorem State.setPm_response (m : Memory) : (s.setPm m).response = s.response := rfl
@[simp] theorem State.setPm_running (m : Memory) : (s.setPm m).running = s.running := rfl
@[simp] theorem State.setPm_params (m : Memory) : (s.setPm m).params = s.params := rfl
@[simp] theorem State.setPm_pm (m : Memory) : (s.setPm m).pm = m := rfl

/-! The fields after `respond`. -/

@[simp] theorem State.respond_tags (r : Response) : (s.respond r).tags = s.tags := rfl
@[simp] theorem State.respond_data (r : Response) : (s.respond r).data = s.data := rfl
@[simp] theorem State.respond_pm (r : Response) : (s.respond r).pm = s.pm := rfl
@[simp] theorem State.respond_cacheEnable (r : Response) : (s.respond r).cacheEnable = s.cacheEnable := rfl
@[simp] theorem State.respond_tlb (r : Response) : (s.respond r).tlb = s.tlb := rfl
@[simp] theorem State.respond_unbacked (r : Response) : (s.respond r).unbacked = s.unbacked := rfl
@[simp] theorem State.respond_inputs (r : Response) : (s.respond r).inputs = s.inputs := rfl
@[simp] theorem State.respond_running (r : Response) : (s.respond r).running = s.running := rfl
@[simp] theorem State.respond_params (r : Response) : (s.respond r).params = s.params := rfl
@[simp] theorem State.respond_response (r : Response) : (s.respond r).response = some r := rfl

/-! The fields after `setInputs`. -/

@[simp] theorem State.setInputs_tags (is : List Input) : (s.setInputs is).tags = s.tags := rfl
@[simp] theorem State.setInputs_data (is : List Input) : (s.setInputs is).data = s.data := rfl
@[simp] theorem State.setInputs_pm (is : List Input) : (s.setInputs is).pm = s.pm := rfl
@[simp] theorem State.setInputs_cacheEnable (is : List Input) : (s.setInputs is).cacheEnable = s.cacheEnable := rfl
@[simp] theorem State.setInputs_tlb (is : List Input) : (s.setInputs is).tlb = s.tlb := rfl
@[simp] theorem State.setInputs_unbacked (is : List Input) : (s.setInputs is).unbacked = s.unbacked := rfl
@[simp] theorem State.setInputs_response (is : List Input) : (s.setInputs is).response = s.response := rfl
@[simp] theorem State.setInputs_running (is : List Input) : (s.setInputs is).running = s.running := rfl
@[simp] theorem State.setInputs_params (is : List Input) : (s.setInputs is).params = s.params := rfl
@[simp] theorem State.setInputs_inputs (is : List Input) : (s.setInputs is).inputs = is := rfl

/-! The fields after `resetBlock`. -/

@[simp] theorem State.resetBlock_pm : (s.resetBlock).pm = s.pm := rfl
@[simp] theorem State.resetBlock_cacheEnable : (s.resetBlock).cacheEnable = s.cacheEnable := rfl
@[simp] theorem State.resetBlock_tlb : (s.resetBlock).tlb = s.tlb := rfl
@[simp] theorem State.resetBlock_unbacked : (s.resetBlock).unbacked = s.unbacked := rfl
@[simp] theorem State.resetBlock_inputs : (s.resetBlock).inputs = s.inputs := rfl
@[simp] theorem State.resetBlock_response : (s.resetBlock).response = s.response := rfl
@[simp] theorem State.resetBlock_running : (s.resetBlock).running = true := rfl
@[simp] theorem State.resetBlock_params : (s.resetBlock).params = s.params := rfl

/-! The fields after `fill`. -/

@[simp] theorem State.fill_pm (pa : PA) (w : Way) : (s.fill pa w).pm = s.pm := rfl
@[simp] theorem State.fill_cacheEnable (pa : PA) (w : Way) : (s.fill pa w).cacheEnable = s.cacheEnable := rfl
@[simp] theorem State.fill_tlb (pa : PA) (w : Way) : (s.fill pa w).tlb = s.tlb := rfl
@[simp] theorem State.fill_unbacked (pa : PA) (w : Way) : (s.fill pa w).unbacked = s.unbacked := rfl
@[simp] theorem State.fill_inputs (pa : PA) (w : Way) : (s.fill pa w).inputs = s.inputs := rfl
@[simp] theorem State.fill_response (pa : PA) (w : Way) : (s.fill pa w).response = s.response := rfl
@[simp] theorem State.fill_running (pa : PA) (w : Way) : (s.fill pa w).running = s.running := rfl
@[simp] theorem State.fill_params (pa : PA) (w : Way) : (s.fill pa w).params = s.params := rfl

/-! The fields after `lineWrite`. -/

@[simp] theorem State.lineWrite_pm (i : SetIx) (w : Way) (o : LineOff) (n : Nat) (v : BitVec (8 * n)) : (s.lineWrite i w o n v).pm = s.pm := rfl
@[simp] theorem State.lineWrite_cacheEnable (i : SetIx) (w : Way) (o : LineOff) (n : Nat) (v : BitVec (8 * n)) : (s.lineWrite i w o n v).cacheEnable = s.cacheEnable := rfl
@[simp] theorem State.lineWrite_tlb (i : SetIx) (w : Way) (o : LineOff) (n : Nat) (v : BitVec (8 * n)) : (s.lineWrite i w o n v).tlb = s.tlb := rfl
@[simp] theorem State.lineWrite_unbacked (i : SetIx) (w : Way) (o : LineOff) (n : Nat) (v : BitVec (8 * n)) : (s.lineWrite i w o n v).unbacked = s.unbacked := rfl
@[simp] theorem State.lineWrite_inputs (i : SetIx) (w : Way) (o : LineOff) (n : Nat) (v : BitVec (8 * n)) : (s.lineWrite i w o n v).inputs = s.inputs := rfl
@[simp] theorem State.lineWrite_response (i : SetIx) (w : Way) (o : LineOff) (n : Nat) (v : BitVec (8 * n)) : (s.lineWrite i w o n v).response = s.response := rfl
@[simp] theorem State.lineWrite_running (i : SetIx) (w : Way) (o : LineOff) (n : Nat) (v : BitVec (8 * n)) : (s.lineWrite i w o n v).running = s.running := rfl
@[simp] theorem State.lineWrite_params (i : SetIx) (w : Way) (o : LineOff) (n : Nat) (v : BitVec (8 * n)) : (s.lineWrite i w o n v).params = s.params := rfl

/-! `T` and `DATA` after an update. -/

theorem way_val_eq {w v : Way} : w.val = v.val ↔ w = v := Fin.val_inj

theorem State.tag_setTag (i j : SetIx) (w v : Way) (e : TagEntry) :
    (s.setTag i w e).tag j v = if i = j ∧ w = v then e else s.tag j v := by
  unfold State.tag State.setTag
  rw [Vector.getElem_set]
  by_cases h : i = j
  · subst h
    simp only [if_true, true_and]
    rw [Vector.getElem_set]
    simp only [Fin.val_inj]
  · have : i.toNat ≠ j.toNat := fun h' => h (BitVec.eq_of_toNat_eq h')
    simp [h, this]

theorem State.line_setLine (i j : SetIx) (w v : Way) (l : Line) :
    (s.setLine i w l).line j v = if i = j ∧ w = v then l else s.line j v := by
  unfold State.line State.setLine
  rw [Vector.getElem_set]
  by_cases h : i = j
  · subst h
    simp only [if_true, true_and]
    rw [Vector.getElem_set]
    simp only [Fin.val_inj]
  · have : i.toNat ≠ j.toNat := fun h' => h (BitVec.eq_of_toNat_eq h')
    simp [h, this]

@[simp] theorem State.tag_setLine (i j : SetIx) (w v : Way) (l : Line) :
    (s.setLine i w l).tag j v = s.tag j v := rfl
@[simp] theorem State.line_setTag (i j : SetIx) (w v : Way) (e : TagEntry) :
    (s.setTag i w e).line j v = s.line j v := rfl
@[simp] theorem State.tag_setPm (m : Memory) (j : SetIx) (v : Way) :
    (s.setPm m).tag j v = s.tag j v := rfl
@[simp] theorem State.line_setPm (m : Memory) (j : SetIx) (v : Way) :
    (s.setPm m).line j v = s.line j v := rfl
@[simp] theorem State.tag_respond (r : Response) (j : SetIx) (v : Way) :
    (s.respond r).tag j v = s.tag j v := rfl
@[simp] theorem State.line_respond (r : Response) (j : SetIx) (v : Way) :
    (s.respond r).line j v = s.line j v := rfl
@[simp] theorem State.tag_setInputs (is : List Input) (j : SetIx) (v : Way) :
    (s.setInputs is).tag j v = s.tag j v := rfl
@[simp] theorem State.line_setInputs (is : List Input) (j : SetIx) (v : Way) :
    (s.setInputs is).line j v = s.line j v := rfl

@[simp] theorem State.tag_resetBlock (j : SetIx) (v : Way) :
    s.resetBlock.tag j v = TagEntry.empty := by
  simp [State.tag, State.resetBlock]

theorem State.tag_reset (j : SetIx) (v : Way) : State.reset.tag j v = TagEntry.empty := by
  simp [State.tag, State.reset]

/-- The tag entries after a fill: the filled way's, and no other, is updated (R117, R118). -/
theorem State.tag_fill (pa : PA) (w v : Way) (j : SetIx) :
    (s.fill pa w).tag j v =
      if setOf pa = j ∧ w = v then (s.tag (setOf pa) w).filled (pfnOf pa) else s.tag j v := by
  unfold State.fill
  rw [State.tag_setTag]
  rfl

/-- The lines after a fill: the filled way's, and no other, is loaded (R116). -/
theorem State.line_fill (pa : PA) (w v : Way) (j : SetIx) :
    (s.fill pa w).line j v =
      if setOf pa = j ∧ w = v then s.pm.readLine (lineBase pa).toNat else s.line j v := by
  unfold State.fill
  rw [State.line_setTag, State.line_setLine]

/-- The tag entries after `lineWrite`: DIRTY of the way written (R120). -/
theorem State.tag_lineWrite (i j : SetIx) (w v : Way) (o : LineOff) (n : Nat) (x : BitVec (8 * n)) :
    (s.lineWrite i w o n x).tag j v =
      if i = j ∧ w = v then (s.tag i w).written else s.tag j v := by
  unfold State.lineWrite
  rw [State.tag_setTag]
  rfl

/-- The lines after `lineWrite` (R120). -/
theorem State.line_lineWrite (i j : SetIx) (w v : Way) (o : LineOff) (n : Nat) (x : BitVec (8 * n)) :
    (s.lineWrite i w o n x).line j v =
      if i = j ∧ w = v then lineStore (s.line i w) o.toNat (leBytes n x) else s.line j v := by
  unfold State.lineWrite
  rw [State.line_setTag, State.line_setLine]

/-! The other way of a set. -/

theorem otherWay_ne (w : Way) : otherWay w ≠ w := by
  revert w; decide

theorem otherWay_ne' (w : Way) : w ≠ otherWay w := by
  revert w; decide

theorem eq_or_eq_otherWay (w v : Way) : v = w ∨ v = otherWay w := by
  revert w v; decide

theorem way_cases (w : Way) : w = 0 ∨ w = 1 := by
  revert w; decide

end Sys2Proof.Machine
end

