-- ==== Sys2Proof/Laws/Values.lean ====
section
/-! SUPPORT. Laws of the bytes of a value and of the bytes of a line (`spec/20_memory.md` R55). -/

namespace Sys2Proof.Machine

@[simp] theorem length_leBytes (n : Nat) (v : BitVec (8 * n)) : (leBytes n v).length = n := by
  simp [leBytes]

@[simp] theorem getElem_leBytes (n : Nat) (v : BitVec (8 * n)) (k : Nat) (h : k < (leBytes n v).length) :
    (leBytes n v)[k] = v.extractLsb' (8 * k) 8 := by
  simp [leBytes]

/-- The number of a row of bytes fits its bits. -/
theorem leNat_lt (bs : List Byte) : leNat bs < 2 ^ (8 * bs.length) := by
  induction bs with
  | nil => simp [leNat]
  | cons b bs ih =>
    have hb := b.isLt
    have : 2 ^ (8 * (bs.length + 1)) = 256 * 2 ^ (8 * bs.length) := by
      rw [Nat.mul_add, Nat.pow_add]; omega
    simp only [leNat, List.length_cons]
    omega

/-- Byte `k` of the number of a row of bytes is the row's byte `k`. -/
theorem leNat_byte (bs : List Byte) (k : Nat) (h : k < bs.length) :
    leNat bs / 2 ^ (8 * k) % 256 = bs[k].toNat := by
  induction bs generalizing k with
  | nil => simp at h
  | cons b bs ih =>
    have hb := b.isLt
    cases k with
    | zero =>
      simp only [leNat, Nat.mul_zero, Nat.pow_zero, Nat.div_one, List.getElem_cons_zero]
      omega
    | succ k =>
      have hp : 2 ^ (8 * (k + 1)) = 256 * 2 ^ (8 * k) := by
        rw [Nat.mul_add, Nat.pow_add]; omega
      have hd : leNat (b :: bs) / 256 = leNat bs := by
        simp only [leNat]; omega
      rw [hp, ← Nat.div_div_eq_div_mul, hd, List.getElem_cons_succ]
      exact ih k (by simpa using h)

/-- Byte `k` of an assembled value is byte `k` of its row: little-endian (R55). -/
theorem leValue_byte (n : Nat) (bs : List Byte) (k : Nat) (hl : bs.length = n) (h : k < n) :
    (leValue n bs).extractLsb' (8 * k) 8 = bs[k]'(by omega) := by
  apply BitVec.eq_of_toNat_eq
  have hlt := leNat_lt bs
  rw [hl] at hlt
  rw [BitVec.extractLsb'_toNat, leValue, BitVec.toNat_ofNat, Nat.mod_eq_of_lt hlt,
    Nat.shiftRight_eq_div_pow]
  exact leNat_byte bs k (by omega)

/-- A value with the same bytes is the same value. -/
theorem eq_of_bytes_eq (n : Nat) (v w : BitVec (8 * n))
    (h : ∀ k < n, v.extractLsb' (8 * k) 8 = w.extractLsb' (8 * k) 8) : v = w := by
  apply BitVec.eq_of_getLsbD_eq
  intro i hi
  have hk := h (i / 8) (by omega)
  have := congrArg (fun x => x.getLsbD (i % 8)) hk
  simp only [BitVec.getLsbD_extractLsb'] at this
  have h8 : i % 8 < 8 := by omega
  simpa [h8, Nat.div_add_mod] using this

/-- `le_n` takes `bytes_n` back (R10). -/
theorem leValue_leBytes (n : Nat) (v : BitVec (8 * n)) : leValue n (leBytes n v) = v := by
  apply eq_of_bytes_eq
  intro k hk
  rw [leValue_byte n _ k (by simp) hk]
  simp

/-! Lines. -/

@[simp] theorem length_lineSlice (l : Line) (o n : Nat) : (lineSlice l o n).length = n := by
  simp [lineSlice]

theorem getElem_lineSlice (l : Line) (o n k : Nat) (h : k < (lineSlice l o n).length) (hk : o + k < 64) :
    (lineSlice l o n)[k] = l[o + k] := by
  simp [lineSlice, hk]

/-- A line after a row of bytes was stored in it (R120). -/
theorem getElem_lineStore (l : Line) (o x : Nat) (bs : List Byte) (hx : x < 64) :
    (lineStore l o bs)[x] =
      if h : o ≤ x ∧ x - o < bs.length then bs[x - o]'h.2 else l[x] := by
  induction bs generalizing l o with
  | nil => simp [lineStore]
  | cons b bs ih =>
    rw [lineStore, ih]
    rcases Nat.lt_trichotomy x o with hlt | heq | hgt
    · rw [dif_neg (by omega), dif_neg (by simp; omega), Vector.getElem_setIfInBounds_ne _ (by omega)]
    · subst heq
      simp
    · have hx' : x - o = (x - (o + 1)) + 1 := by omega
      by_cases hl : x - (o + 1) < bs.length
      · rw [dif_pos ⟨by omega, hl⟩, dif_pos ⟨by omega, by simp; omega⟩]
        simp [hx']
      · rw [dif_neg (by omega), dif_neg (by simp; omega), Vector.getElem_setIfInBounds_ne _ (by omega)]

/-- A byte stored in a line. -/
theorem getElem_lineStore_inside (l : Line) (o k : Nat) (bs : List Byte) (hk : k < bs.length)
    (h : o + k < 64) : (lineStore l o bs)[o + k] = bs[k] := by
  rw [getElem_lineStore, dif_pos ⟨by omega, by omega⟩]
  simp

/-- The bytes of a line outside those stored are unchanged. -/
theorem getElem_lineStore_outside (l : Line) (o x : Nat) (bs : List Byte) (hx : x < 64)
    (h : x < o ∨ o + bs.length ≤ x) : (lineStore l o bs)[x] = l[x] := by
  rw [getElem_lineStore, dif_neg (by omega)]

/-- Byte `k` of `lineRead` (R120). -/
theorem State.lineRead_byte (s : State) (i : SetIx) (w : Way) (o : LineOff) (n k : Nat) (hk : k < n)
    (h : o.toNat + k < 64) :
    (s.lineRead i w o n).extractLsb' (8 * k) 8 = (s.line i w)[o.toNat + k] := by
  unfold State.lineRead
  rw [leValue_byte n _ k (by simp) hk, getElem_lineSlice _ _ _ _ _ h]

/-- Byte `k` of a value read from PM. -/
theorem readValue_byte (m : Memory) (a n k : Nat) (hk : k < n) :
    (leValue n (m.readBytes a n)).extractLsb' (8 * k) 8 = m.read (a + k) := by
  rw [leValue_byte n _ k (by simp) hk]
  simp

end Sys2Proof.Machine
end

