-- ==== Sys2Proof/Laws/Cache.lean ====
section
/-! SUPPORT. One law per operation of the cache path: everything it can do
(`spec/41_lookup_fill.md`, `spec/42_read.md` R130, `spec/43_write.md` R140). -/

namespace Sys2Proof.Machine

/-! findInCache -/

theorem TagEntry.answers_iff (e : TagEntry) (ppf : Pfn) :
    e.answers ppf = true ↔ e.valid = true ∧ e.pfn = ppf := by
  simp [TagEntry.answers]

/-- A hit names a valid way whose tag is the frame (R111). -/
theorem State.findInCache_some {s : State} {i : SetIx} {ppf : Pfn} {w : Way}
    (h : s.findInCache i ppf = some w) : (s.tag i w).valid = true ∧ (s.tag i w).pfn = ppf := by
  unfold State.findInCache at h
  split at h
  · cases h; exact (TagEntry.answers_iff ..).1 ‹_›
  · split at h
    · cases h; exact (TagEntry.answers_iff ..).1 ‹_›
    · cases h

/-- A miss means no way holds the line (R111). -/
theorem State.findInCache_none {s : State} {i : SetIx} {ppf : Pfn} :
    s.findInCache i ppf = none ↔ ¬ s.resident ppf i := by
  unfold State.findInCache State.resident
  constructor
  · intro h ⟨w, hw⟩
    rw [← TagEntry.answers_iff] at hw
    rcases way_cases w with rfl | rfl
    · simp [hw] at h
    · simp only [hw, if_true] at h
      split at h <;> cases h
  · intro h
    have h0 : ¬ (s.tag i 0).answers ppf = true := fun hw => h ⟨0, (TagEntry.answers_iff ..).1 hw⟩
    have h1 : ¬ (s.tag i 1).answers ppf = true := fun hw => h ⟨1, (TagEntry.answers_iff ..).1 hw⟩
    simp [h0, h1]

theorem State.findInCache_isSome {s : State} {i : SetIx} {ppf : Pfn} (h : s.resident ppf i) :
    ∃ w, s.findInCache i ppf = some w := by
  cases hf : s.findInCache i ppf with
  | some w => exact ⟨w, rfl⟩
  | none => exact absurd h (State.findInCache_none.1 hf)

/-! Write-back -/

/-- PM after the write-back of a way, where it goes ahead (R115, R123). -/
def State.pmAfterWriteBack (s : State) (i : SetIx) (w : Way) : Memory :=
  if (s.tag i w).needsWriteBack && s.backed (s.tag i w).pfn then
    s.pm.writeLine (lineAddr (s.tag i w).pfn i).toNat (s.line i w)
  else s.pm

/-- The write-back of this way is refused (R123). -/
def State.writeBackRefused (s : State) (i : SetIx) (w : Way) : Prop :=
  (s.tag i w).needsWriteBack = true ∧ s.backed (s.tag i w).pfn = false ∧ s.params.wbPolicy = .refuse

theorem State.setPm_self (s : State) : s.setPm s.pm = s := rfl

/-- What a write-back does (R115, R123). -/
theorem State.writeBack_ok {s : State} {i : SetIx} {w : Way} (h : ¬ s.writeBackRefused i w) :
    s.writeBack i w = .ok (s.setPm (s.pmAfterWriteBack i w)) := by
  unfold State.writeBackRefused at h
  unfold State.writeBack State.pmAfterWriteBack
  cases hn : (s.tag i w).needsWriteBack <;> cases hb : s.backed (s.tag i w).pfn <;>
    simp [hn, hb, State.setPm_self] at h ⊢
  cases hp : s.params.wbPolicy
  · exact absurd hp h
  · rfl

theorem State.writeBack_error {s : State} {i : SetIx} {w : Way} (h : s.writeBackRefused i w) :
    s.writeBack i w = .error .writebackUnbacked := by
  obtain ⟨hn, hb, hp⟩ := h
  simp [State.writeBack, hn, hb, hp]

theorem State.pmAfterWriteBack_wf {s : State} (h : s.pm.wf) (i : SetIx) (w : Way) :
    (s.pmAfterWriteBack i w).wf := by
  unfold State.pmAfterWriteBack
  split
  · exact Memory.writeLine_wf h _ _
  · exact h

/-- Outside the replaced line, PM is unchanged by a write-back. -/
theorem State.read_pmAfterWriteBack_outside (s : State) (i : SetIx) (w : Way) {x : Nat}
    (h : x < (lineAddr (s.tag i w).pfn i).toNat ∨ (lineAddr (s.tag i w).pfn i).toNat + 64 ≤ x) :
    (s.pmAfterWriteBack i w).read x = s.pm.read x := by
  unfold State.pmAfterWriteBack
  split
  · exact Memory.read_writeLine_outside _ _ h
  · rfl

/-! getFreeCache and getLine -/

/-- The state after a miss: written back, filled (R114). -/
def State.afterMiss (s : State) (pa : PA) : State :=
  (s.setPm (s.pmAfterWriteBack (setOf pa) (s.victim (setOf pa)))).fill pa (s.victim (setOf pa))

theorem State.getLine_hit {s : State} {pa : PA} {w : Way}
    (h : s.findInCache (setOf pa) (pfnOf pa) = some w) : s.getLine pa = .ok (w, s) := by
  simp [State.getLine, h]

theorem State.getLine_miss {s : State} {pa : PA} (h : ¬ s.resident (pfnOf pa) (setOf pa))
    (hw : ¬ s.writeBackRefused (setOf pa) (s.victim (setOf pa))) :
    s.getLine pa = .ok (s.victim (setOf pa), s.afterMiss pa) := by
  simp [State.getLine, State.findInCache_none.2 h, State.getFreeCache, State.writeBack_ok hw,
    State.afterMiss]

theorem State.getLine_error {s : State} {pa : PA} (h : ¬ s.resident (pfnOf pa) (setOf pa))
    (hw : s.writeBackRefused (setOf pa) (s.victim (setOf pa))) :
    s.getLine pa = .error .writebackUnbacked := by
  simp [State.getLine, State.findInCache_none.2 h, State.getFreeCache, State.writeBack_error hw]

/-- Everything `getLine` can do when it answers (R110): a hit that changes nothing, or a miss. -/
theorem State.getLine_cases {s t : State} {pa : PA} {w : Way} (h : s.getLine pa = .ok (w, t)) :
    (s.findInCache (setOf pa) (pfnOf pa) = some w ∧ t = s) ∨
    (¬ s.resident (pfnOf pa) (setOf pa) ∧ ¬ s.writeBackRefused (setOf pa) (s.victim (setOf pa)) ∧
      w = s.victim (setOf pa) ∧ t = s.afterMiss pa) := by
  by_cases hr : s.resident (pfnOf pa) (setOf pa)
  · obtain ⟨v, hv⟩ := State.findInCache_isSome hr
    rw [State.getLine_hit hv] at h
    cases h
    exact .inl ⟨hv, rfl⟩
  · by_cases hw : s.writeBackRefused (setOf pa) (s.victim (setOf pa))
    · rw [State.getLine_error hr hw] at h
      cases h
    · rw [State.getLine_miss hr hw] at h
      cases h
      exact .inr ⟨hr, hw, rfl, rfl⟩

/-! The state after a miss, field by field. -/

variable (s : State) (pa : PA)

@[simp] theorem State.afterMiss_cacheEnable : (s.afterMiss pa).cacheEnable = s.cacheEnable := rfl
@[simp] theorem State.afterMiss_tlb : (s.afterMiss pa).tlb = s.tlb := rfl
@[simp] theorem State.afterMiss_unbacked : (s.afterMiss pa).unbacked = s.unbacked := rfl
@[simp] theorem State.afterMiss_inputs : (s.afterMiss pa).inputs = s.inputs := rfl
@[simp] theorem State.afterMiss_response : (s.afterMiss pa).response = s.response := rfl
@[simp] theorem State.afterMiss_running : (s.afterMiss pa).running = s.running := rfl
@[simp] theorem State.afterMiss_params : (s.afterMiss pa).params = s.params := rfl
@[simp] theorem State.afterMiss_pm :
    (s.afterMiss pa).pm = s.pmAfterWriteBack (setOf pa) (s.victim (setOf pa)) := rfl

theorem State.tag_afterMiss (j : SetIx) (v : Way) :
    (s.afterMiss pa).tag j v =
      if setOf pa = j ∧ s.victim (setOf pa) = v then
        (s.tag (setOf pa) (s.victim (setOf pa))).filled (pfnOf pa)
      else s.tag j v := by
  unfold State.afterMiss
  rw [State.tag_fill]
  rfl

theorem State.line_afterMiss (j : SetIx) (v : Way) :
    (s.afterMiss pa).line j v =
      if setOf pa = j ∧ s.victim (setOf pa) = v then
        (s.pmAfterWriteBack (setOf pa) (s.victim (setOf pa))).readLine (lineBase pa).toNat
      else s.line j v := by
  unfold State.afterMiss
  rw [State.line_fill]
  rfl

/-- The line loaded by a miss is the line PM held before it: the write-back goes to another line
(R116). -/
theorem State.getElem_line_afterMiss (h : ¬ s.resident (pfnOf pa) (setOf pa)) (k : Nat) (hk : k < 64) :
    ((s.afterMiss pa).line (setOf pa) (s.victim (setOf pa)))[k] =
      s.pm.read ((lineBase pa).toNat + k) := by
  rw [State.line_afterMiss, if_pos ⟨rfl, rfl⟩, Memory.getElem_readLine]
  unfold State.pmAfterWriteBack
  split
  · rename_i hn
    have hv : (s.tag (setOf pa) (s.victim (setOf pa))).valid = true := by
      simp [TagEntry.needsWriteBack] at hn
      exact hn.1.2
    have hne : (s.tag (setOf pa) (s.victim (setOf pa))).pfn ≠ pfnOf pa := fun he =>
      h ⟨_, hv, he⟩
    rw [Memory.read_writeLine_outside]
    have := lineAddr_disjoint (setOf pa) hne
    rw [lineBase_eq]
    omega
  · rfl

/-- After a fill the next victim of the set is the other way (R118). -/
theorem State.victim_afterMiss :
    (s.afterMiss pa).victim (setOf pa) = otherWay (s.victim (setOf pa)) := by
  unfold State.victim
  rw [State.tag_afterMiss, State.tag_afterMiss]
  unfold State.victim victimOf
  cases h0 : (s.tag (setOf pa) 0).lrf <;> cases h1 : (s.tag (setOf pa) 1).lrf <;>
    simp [TagEntry.filled, h0, h1, otherWay]

variable {s pa}

/-! READ(n) and WRITE(n) -/

/-- The access of a request goes ahead (R167 (1), (2) passed; the page is plain RAM). -/
def State.admitted (s : State) (n : Nat) (va : VA) (pfn : Pfn) : Prop :=
  alignedTo n va = true ∧ s.backed (pfnOf (physAddr s.params pfn va)) = true

theorem readRequest_bypass {n : Nat} {ctx : Bool} {va : VA} {pfn : Pfn}
    (h : s.admitted n va pfn) (hc : s.checkCache ctx va = false) :
    readRequest n ctx va pfn s =
      .ok (leValue n (s.pm.readBytes (physAddr s.params pfn va).toNat n), s) := by
  simp [readRequest, h.1, h.2, hc]

theorem readRequest_cached {n : Nat} {ctx : Bool} {va : VA} {pfn : Pfn}
    (h : s.admitted n va pfn) (hc : s.checkCache ctx va = true) :
    readRequest n ctx va pfn s =
      match s.getLine (physAddr s.params pfn va) with
      | .error r => .error r
      | .ok (w, t) => .ok (t.lineRead (setOf (physAddr s.params pfn va)) w
          (offOf (physAddr s.params pfn va)) n, t) := by
  simp [readRequest, h.1, h.2, hc] <;> rfl

theorem writeRequest_bypass {n : Nat} {ctx : Bool} {va : VA} {pfn : Pfn} {v : BitVec (8 * n)}
    (h : s.admitted n va pfn) (hc : s.checkCache ctx va = false) :
    writeRequest n ctx va pfn v s =
      .ok (s.setPm (s.pm.writeBytes (physAddr s.params pfn va).toNat (leBytes n v))) := by
  simp [writeRequest, h.1, h.2, hc]

theorem writeRequest_cached {n : Nat} {ctx : Bool} {va : VA} {pfn : Pfn} {v : BitVec (8 * n)}
    (h : s.admitted n va pfn) (hc : s.checkCache ctx va = true) :
    writeRequest n ctx va pfn v s =
      match s.getLine (physAddr s.params pfn va) with
      | .error r => .error r
      | .ok (w, t) => .ok (t.lineWrite (setOf (physAddr s.params pfn va)) w
          (offOf (physAddr s.params pfn va)) n v) := by
  simp [writeRequest, h.1, h.2, hc] <;> rfl

/-- Everything READ(n) can do when it answers (R130): a bypass that changes nothing, or the line of a
way that `getLine` gave. -/
theorem readRequest_cases {n : Nat} {ctx : Bool} {va : VA} {pfn : Pfn} {t : State} {x : BitVec (8 * n)}
    (h : readRequest n ctx va pfn s = .ok (x, t)) :
    s.admitted n va pfn ∧
    ((s.checkCache ctx va = false ∧ t = s ∧
        x = leValue n (s.pm.readBytes (physAddr s.params pfn va).toNat n)) ∨
     (s.checkCache ctx va = true ∧ ∃ w, s.getLine (physAddr s.params pfn va) = .ok (w, t) ∧
        x = t.lineRead (setOf (physAddr s.params pfn va)) w (offOf (physAddr s.params pfn va)) n)) := by
  by_cases ha : s.admitted n va pfn
  · refine ⟨ha, ?_⟩
    cases hc : s.checkCache ctx va with
    | false =>
      rw [readRequest_bypass ha hc] at h
      cases h
      exact .inl ⟨rfl, rfl, rfl⟩
    | true =>
      rw [readRequest_cached ha hc] at h
      cases hg : s.getLine (physAddr s.params pfn va) with
      | error r => simp [hg] at h
      | ok p =>
        obtain ⟨w, u⟩ := p
        simp only [hg] at h
        cases h
        exact .inr ⟨rfl, w, rfl, rfl⟩
  · exfalso
    unfold State.admitted at ha
    unfold readRequest at h
    simp only at h
    split at h
    · split at h
      · exact ha ⟨‹_›, ‹_›⟩
      · cases h
    · cases h

/-- Everything WRITE(n) can do when it answers (R140): PM's bytes changed round the cache, or the line
of a way that `getLine` gave changed. -/
theorem writeRequest_cases {n : Nat} {ctx : Bool} {va : VA} {pfn : Pfn} {t : State} {v : BitVec (8 * n)}
    (h : writeRequest n ctx va pfn v s = .ok t) :
    s.admitted n va pfn ∧
    ((s.checkCache ctx va = false ∧
        t = s.setPm (s.pm.writeBytes (physAddr s.params pfn va).toNat (leBytes n v))) ∨
     (s.checkCache ctx va = true ∧ ∃ w u, s.getLine (physAddr s.params pfn va) = .ok (w, u) ∧
        t = u.lineWrite (setOf (physAddr s.params pfn va)) w (offOf (physAddr s.params pfn va)) n v)) := by
  by_cases ha : s.admitted n va pfn
  · refine ⟨ha, ?_⟩
    cases hc : s.checkCache ctx va with
    | false =>
      rw [writeRequest_bypass ha hc] at h
      cases h
      exact .inl ⟨rfl, rfl⟩
    | true =>
      rw [writeRequest_cached ha hc] at h
      cases hg : s.getLine (physAddr s.params pfn va) with
      | error r => simp [hg] at h
      | ok p =>
        obtain ⟨w, u⟩ := p
        simp only [hg] at h
        cases h
        exact .inr ⟨rfl, w, u, rfl, rfl⟩
  · exfalso
    unfold State.admitted at ha
    unfold writeRequest at h
    simp only at h
    split at h
    · split at h
      · exact ha ⟨‹_›, ‹_›⟩
      · cases h
    · cases h

end Sys2Proof.Machine
end

