-- ==== Sys2Proof/Laws/Decode.lean ====
section
/-! SUPPORT. Laws of the decoder and the serial form of a request (log 2). -/

namespace Sys2Proof

/-- A request is recovered from its serial form. -/
theorem Request.ofWord_toWord (r : Request) : Request.ofWord r.toWord = r := by
  obtain ⟨op, c, va, pfn, wd⟩ := r
  unfold Request.ofWord Request.toWord
  simp only [Request.mk.injEq]
  refine ⟨?_, ?_, ?_, ?_, ?_⟩
  · apply BitVec.eq_of_getLsbD_eq
    intro i hi
    rw [BitVec.getLsbD_extractLsb']
    simp only [BitVec.getLsbD_append]
    simp [hi]
  · change (wd ++ pfn ++ va ++ BitVec.ofBool c ++ op : BitVec (128 + 20 + 32 + 1 + 4)).getLsbD 4 = c
    simp only [BitVec.getLsbD_append]
    simp
  · apply BitVec.eq_of_getLsbD_eq
    intro i hi
    rw [BitVec.getLsbD_extractLsb']
    simp only [BitVec.getLsbD_append]
    simp [hi, show ¬ (5 + i < 4) by omega, show ¬ (5 + i - 4 < 1) by omega,
      show 5 + i - 4 - 1 = i by omega]
  · apply BitVec.eq_of_getLsbD_eq
    intro i hi
    rw [BitVec.getLsbD_extractLsb']
    simp only [BitVec.getLsbD_append]
    simp [hi, show ¬ (37 + i < 4) by omega, show ¬ (37 + i - 4 < 1) by omega,
      show ¬ (37 + i - 4 - 1 < 32) by omega, show 37 + i - 4 - 1 - 32 = i by omega]
  · apply BitVec.eq_of_getLsbD_eq
    intro i hi
    rw [BitVec.getLsbD_extractLsb']
    simp only [BitVec.getLsbD_append]
    simp [hi, show ¬ (57 + i < 4) by omega, show ¬ (57 + i - 4 < 1) by omega,
      show ¬ (57 + i - 4 - 1 < 32) by omega, show ¬ (57 + i - 4 - 1 - 32 < 20) by omega,
      show 57 + i - 4 - 1 - 32 - 20 = i by omega]

/-- The low bits of a widened value are the value. -/
theorem extractLsb'_setWidth_128 (n : Nat) (h : n ≤ 128) (v : BitVec n) :
    (v.setWidth 128).extractLsb' 0 n = v := by
  apply BitVec.eq_of_getLsbD_eq
  intro i hi
  rw [BitVec.getLsbD_extractLsb', BitVec.getLsbD_setWidth]
  simp [hi]
  intro
  omega

/-- The request of an operation decodes to it (R82, R84, R86). -/
theorem decode_encode (i : Instr) : decode (encode i) = .ok i := by
  cases i <;>
    simp [decode, encode, opcodeOf, Instr.staticCtx, Instr.va, Instr.pfn, wdataOf]
  all_goals exact extractLsb'_setWidth_128 _ (by omega) _

end Sys2Proof
end

