-- ==== Sys2Proof/Laws/Exec.lean ====
section
/-! SUPPORT. `exec` in one form for the five reads and one for the five writes. -/

namespace Sys2Proof.Machine

theorem Instr.bytes_dvd (i : Instr) : i.bytes ∣ 64 := by
  cases i <;> (simp only [Instr.bytes]; decide)

theorem Instr.bytes_pos (i : Instr) : 0 < i.bytes := by
  cases i <;> (simp only [Instr.bytes]; decide)

/-- An operation's alignment is that of its width. -/
theorem Instr.aligned_iff (i : Instr) : i.aligned = alignedTo i.bytes i.va := rfl

theorem State.presentable_iff (s : State) (i : Instr) :
    s.presentable i ↔ s.admitted i.bytes i.va i.pfn := Iff.rfl

/-- A response that carries data. -/
def Response.isData : Response → Bool
  | .data8 _ => true
  | .data16 _ => true
  | .data32 _ => true
  | .data64 _ => true
  | .data128 _ => true
  | .done => false
  | .refused _ => false

/-- The five reads: READ(n) with the response of their width. -/
theorem exec_read (i : Instr) (h : i.isWrite = false) :
    ∃ data : BitVec (8 * i.bytes) → Response,
      (∀ v f, (∀ k < i.bytes, v.extractLsb' (8 * k) 8 = f k) → (data v).dataOf i.bytes f) ∧
      (∀ v, (data v).isData = true) ∧
      ∀ s, exec i s = finishRead data (readRequest i.bytes i.staticCtx i.va i.pfn s) := by
  cases i with
  | rd8 c a p => exact ⟨.data8, fun v f hv => ⟨rfl, hv⟩, fun _ => rfl, fun _ => rfl⟩
  | rd16 c a p => exact ⟨.data16, fun v f hv => ⟨rfl, hv⟩, fun _ => rfl, fun _ => rfl⟩
  | rd32 c a p => exact ⟨.data32, fun v f hv => ⟨rfl, hv⟩, fun _ => rfl, fun _ => rfl⟩
  | rd64 c a p => exact ⟨.data64, fun v f hv => ⟨rfl, hv⟩, fun _ => rfl, fun _ => rfl⟩
  | rd128 c a p => exact ⟨.data128, fun v f hv => ⟨rfl, hv⟩, fun _ => rfl, fun _ => rfl⟩
  | wr8 c a p v => simp [Instr.isWrite] at h
  | wr16 c a p v => simp [Instr.isWrite] at h
  | wr32 c a p v => simp [Instr.isWrite] at h
  | wr64 c a p v => simp [Instr.isWrite] at h
  | wr128 c a p v => simp [Instr.isWrite] at h

/-- The five writes: WRITE(n) of the value they carry. -/
theorem exec_write (i : Instr) (h : i.isWrite = true) :
    ∃ v : BitVec (8 * i.bytes), (∀ k < i.bytes, v.extractLsb' (8 * k) 8 = storedByte i k) ∧
      ∀ s, exec i s = finishWrite (writeRequest i.bytes i.staticCtx i.va i.pfn v s) := by
  cases i with
  | rd8 c a p => simp [Instr.isWrite] at h
  | rd16 c a p => simp [Instr.isWrite] at h
  | rd32 c a p => simp [Instr.isWrite] at h
  | rd64 c a p => simp [Instr.isWrite] at h
  | rd128 c a p => simp [Instr.isWrite] at h
  | wr8 c a p v => exact ⟨v, fun _ _ => rfl, fun _ => rfl⟩
  | wr16 c a p v => exact ⟨v, fun _ _ => rfl, fun _ => rfl⟩
  | wr32 c a p v => exact ⟨v, fun _ _ => rfl, fun _ => rfl⟩
  | wr64 c a p v => exact ⟨v, fun _ _ => rfl, fun _ => rfl⟩
  | wr128 c a p v => exact ⟨v, fun _ _ => rfl, fun _ => rfl⟩

theorem finishRead_next {n : Nat} {data : BitVec (8 * n) → Response} {x : Except Refusal (BitVec (8 * n) × State)}
    {t : State} (h : finishRead data x = .next t) : ∃ v u, x = .ok (v, u) ∧ t = u.respond (data v) := by
  match x with
  | .ok (v, u) => simp only [finishRead, Host.Outcome.next.injEq] at h; exact ⟨v, u, rfl, h.symm⟩
  | .error r => simp [finishRead] at h

theorem finishWrite_next {x : Except Refusal State} {t : State} (h : finishWrite x = .next t) :
    ∃ u, x = .ok u ∧ t = u.respond .done := by
  match x with
  | .ok u => simp only [finishWrite, Host.Outcome.next.injEq] at h; exact ⟨u, rfl, h.symm⟩
  | .error r => simp [finishWrite] at h

/-- No operation raises a fault (R160). -/
theorem exec_no_fault (i : Instr) (s : State) (f : Fault) : exec i s ≠ .fault f := by
  cases hw : i.isWrite with
  | false =>
    obtain ⟨data, -, -, h⟩ := exec_read i hw
    rw [h]
    cases readRequest i.bytes i.staticCtx i.va i.pfn s <;> simp [finishRead]
  | true =>
    obtain ⟨v, -, h⟩ := exec_write i hw
    rw [h]
    cases writeRequest i.bytes i.staticCtx i.va i.pfn v s <;> simp [finishWrite]

/-- Data that agrees byte for byte is the same data. -/
theorem Response.dataOf_congr {r : Response} {n : Nat} {f g : Nat → Byte} (h : r.dataOf n f)
    (hg : ∀ k < n, f k = g k) : r.dataOf n g := by
  cases r <;> simp only [Response.dataOf] at h ⊢
  all_goals
    obtain ⟨rfl, h⟩ := h
    exact ⟨rfl, fun k hk => (h k hk).trans (hg k hk)⟩

/-- An aligned access lies in its line (R58). -/
theorem State.off_lt {s : State} {i : Instr} (ha : i.aligned = true) {k : Nat} (hk : k < i.bytes) :
    (offOf (s.pa i)).toNat + k < 64 := by
  have hb := off_add_le s.params i.pfn i.va i.bytes ha (Instr.bytes_dvd i)
  change (offOf (physAddr s.params i.pfn i.va)).toNat + k < 64
  omega

/-- A write-back is refused exactly where the victim is stranded and the policy refuses (R123). -/
theorem State.writeBackRefused_iff (s : State) (set : SetIx) :
    s.writeBackRefused set (s.victim set) ↔ s.strandedVictim set ∧ s.params.wbPolicy = .refuse := by
  simp [State.writeBackRefused, State.strandedVictim, State.victimTag, TagEntry.needsWriteBack,
    and_assoc]

/-- PM after the write-back of the victim of a set (R115, R123). -/
theorem State.pmAfterWriteBack_victim (s : State) (set : SetIx) :
    (¬ s.writesBack set → s.pmAfterWriteBack set (s.victim set) = s.pm) ∧
    (s.writesBack set → s.pmAfterWriteBack set (s.victim set) =
      s.pm.writeLine (s.victimLine set) (s.line set (s.victim set))) := by
  constructor
  · intro h
    unfold State.pmAfterWriteBack
    rw [if_neg]
    intro h'
    apply h
    simp [TagEntry.needsWriteBack] at h'
    exact ⟨h'.1.1, h'.1.2, h'.2⟩
  · rintro ⟨h1, h2, h3⟩
    unfold State.pmAfterWriteBack
    rw [if_pos]
    simp [TagEntry.needsWriteBack, h1, h2, h3]

/-- The line after a write's bytes are stored in it (R120). -/
theorem getElem_lineStore_stored {i : Instr} {v : BitVec (8 * i.bytes)}
    (hv : ∀ k < i.bytes, v.extractLsb' (8 * k) 8 = storedByte i k) (l : Line) (o k : Nat) (hk : k < 64) :
    (lineStore l o (leBytes i.bytes v))[k] =
      if o ≤ k ∧ k < o + i.bytes then storedByte i (k - o) else l[k] := by
  rw [getElem_lineStore]
  split
  · rename_i h
    rw [length_leBytes] at h
    rw [if_pos ⟨h.1, by omega⟩, getElem_leBytes]
    exact hv _ (by omega)
  · rename_i h
    rw [length_leBytes] at h
    rw [if_neg (by omega)]

/-- A read that is admitted: what it answers on each path, given the line on the cache path. -/
theorem exec_read_admitted {i : Instr} {s : State} (hw : i.isWrite = false) (hp : s.presentable i) :
    (¬ s.cached i → ∃ r, exec i s = .next (s.respond r) ∧
      r.dataOf i.bytes fun k => s.pm.read ((s.pa i).toNat + k)) ∧
    (s.cached i → ∀ w u, s.getLine (s.pa i) = .ok (w, u) → ∃ r, exec i s = .next (u.respond r) ∧
      r.dataOf i.bytes fun k => (u.line (s.setIx i) w)[(offOf (s.pa i)).toNat + k]?.getD 0) := by
  obtain ⟨data, hd, -, he⟩ := exec_read i hw
  constructor
  · intro hc
    have hc : s.checkCache i.staticCtx i.va = false := by simpa [State.cached] using hc
    refine ⟨data (leValue i.bytes (s.pm.readBytes (s.pa i).toNat i.bytes)), ?_,
      hd _ _ fun k hk => readValue_byte _ _ _ _ hk⟩
    rw [he, readRequest_bypass hp hc]
    rfl
  · intro hc w u hg
    refine ⟨data (u.lineRead (s.setIx i) w (offOf (s.pa i)) i.bytes), ?_, hd _ _ fun k hk => ?_⟩
    · rw [he, readRequest_cached hp hc, hg]
      rfl
    · have hb := State.off_lt (s := s) hp.1 hk
      rw [State.lineRead_byte _ _ _ _ _ _ hk hb, Vector.getElem?_eq_getElem hb]
      rfl

/-- A write that is admitted: what it leaves on each path, given the line on the cache path. -/
theorem exec_write_admitted {i : Instr} {s : State} (hw : i.isWrite = true) (hp : s.presentable i) :
    ∃ v : BitVec (8 * i.bytes), (∀ k < i.bytes, v.extractLsb' (8 * k) 8 = storedByte i k) ∧
      (¬ s.cached i → exec i s =
        .next ((s.setPm (s.pm.writeBytes (s.pa i).toNat (leBytes i.bytes v))).respond .done)) ∧
      (s.cached i → ∀ w u, s.getLine (s.pa i) = .ok (w, u) →
        exec i s = .next ((u.lineWrite (s.setIx i) w (offOf (s.pa i)) i.bytes v).respond .done)) := by
  obtain ⟨v, hv, he⟩ := exec_write i hw
  refine ⟨v, hv, fun hc => ?_, fun hc w u hg => ?_⟩
  · have hc : s.checkCache i.staticCtx i.va = false := by simpa [State.cached] using hc
    rw [he, writeRequest_bypass hp hc]
    rfl
  · rw [he, writeRequest_cached hp hc, hg]
    rfl

/-- The line an operation finds or fills: the state `getLine` leaves, and the way. -/
structure Served (s : State) (i : Instr) (w : Way) (u : State) : Prop where
  presentable : s.presentable i
  cached : s.cached i
  line : s.getLine (s.pa i) = .ok (w, u)

/-- Everything an operation that answers can do (R103): a bypass read, a bypass write, a read or a write
of the line that `getLine` gave. -/
theorem exec_next_cases {i : Instr} {s t : State} (h : exec i s = .next t) :
    s.presentable i ∧
    ((i.isWrite = false ∧ s.checkCache i.staticCtx i.va = false ∧ ∃ r, t = s.respond r ∧
        r.dataOf i.bytes fun k => s.pm.read ((s.pa i).toNat + k)) ∨
     (i.isWrite = true ∧ s.checkCache i.staticCtx i.va = false ∧
        ∃ v : BitVec (8 * i.bytes), (∀ k < i.bytes, v.extractLsb' (8 * k) 8 = storedByte i k) ∧
        t = (s.setPm (s.pm.writeBytes (s.pa i).toNat (leBytes i.bytes v))).respond .done) ∨
     (i.isWrite = false ∧ ∃ w u, Served s i w u ∧ ∃ r, t = u.respond r ∧
        r.dataOf i.bytes fun k => (u.line (s.setIx i) w)[(offOf (s.pa i)).toNat + k]?.getD 0) ∨
     (i.isWrite = true ∧ ∃ w u, Served s i w u ∧
        ∃ v : BitVec (8 * i.bytes), (∀ k < i.bytes, v.extractLsb' (8 * k) 8 = storedByte i k) ∧
        t = (u.lineWrite (s.setIx i) w (offOf (s.pa i)) i.bytes v).respond .done)) := by
  cases hw : i.isWrite with
  | false =>
    obtain ⟨data, hd, -, he⟩ := exec_read i hw
    rw [he] at h
    obtain ⟨v, u, hr, rfl⟩ := finishRead_next h
    obtain ⟨ha, ⟨hc, rfl, rfl⟩ | ⟨hc, w, hg, rfl⟩⟩ := readRequest_cases hr
    · refine ⟨ha, .inl ⟨rfl, hc, _, rfl, hd _ _ ?_⟩⟩
      intro k hk
      exact readValue_byte _ _ _ _ hk
    · refine ⟨ha, .inr (.inr (.inl ⟨rfl, w, u, ⟨ha, hc, hg⟩, _, rfl, hd _ _ ?_⟩))⟩
      intro k hk
      have hb := off_add_le s.params i.pfn i.va i.bytes ha.1 (Instr.bytes_dvd i)
      have hb' : (offOf (physAddr s.params i.pfn i.va)).toNat + k < 64 := by omega
      simp only [State.pa, State.setIx]
      rw [State.lineRead_byte _ _ _ _ _ _ hk hb', Vector.getElem?_eq_getElem hb']
      rfl
  | true =>
    obtain ⟨v, hv, he⟩ := exec_write i hw
    rw [he] at h
    obtain ⟨u, hr, rfl⟩ := finishWrite_next h
    obtain ⟨ha, ⟨hc, rfl⟩ | ⟨hc, w, u, hg, rfl⟩⟩ := writeRequest_cases hr
    · exact ⟨ha, .inr (.inl ⟨rfl, hc, v, hv, rfl⟩)⟩
    · exact ⟨ha, .inr (.inr (.inr ⟨rfl, w, u, ⟨ha, hc, hg⟩, v, hv, rfl⟩))⟩

end Sys2Proof.Machine
end

