-- ==== Sys2Proof/Laws/Filter.lean ====
section
/-! SUPPORT. Laws of the coherency filter (`spec/40_filter.md`), among them that the model's TLB entries
realise every entry type, `covers` and `cacheable` of `spec/10_state.md` R31. -/

namespace Sys2Proof.Machine

theorem VaRange.holds_iff (r : VaRange) (va : VA) : r.holds va = true ↔ r.lo ≤ va ∧ va ≤ r.hi := by
  simp [VaRange.holds]

theorem TlbEntry.covers_iff (e : TlbEntry) (va : VA) :
    e.covers va = true ↔ ∃ r ∈ e.ranges, r.lo ≤ va ∧ va ≤ r.hi := by
  simp [TlbEntry.covers, VaRange.holds]

/-- The addresses of a predicate, each as a range of its own. -/
def pointRanges (p : VA → Bool) : List VaRange :=
  ((List.finRange (2 ^ 32)).map fun k => BitVec.ofFin k).filterMap fun va =>
    if p va then some { lo := va, hi := va } else none

/-- Whatever an implementation's entries look like, an entry of the model covers the same addresses and
carries the same mark (log 11): nothing is lost by the model's form of `TlbEntry`. -/
theorem exists_entry_covering (p : VA → Bool) (mark : Bool) :
    ∃ e : TlbEntry, (∀ va, e.covers va = p va) ∧ e.cacheable = mark := by
  refine ⟨{ ranges := pointRanges p, cacheable := mark }, fun va => ?_, rfl⟩
  apply Bool.eq_iff_iff.2
  rw [TlbEntry.covers_iff]
  simp only [pointRanges, List.mem_filterMap, List.mem_map]
  constructor
  · rintro ⟨r, ⟨x, -, hx⟩, h1, h2⟩
    split at hx
    · cases hx
      have : va = x := BitVec.le_antisymm h2 h1
      subst this
      assumption
    · cases hx
  · intro h
    exact ⟨⟨va, va⟩, ⟨va, ⟨va.toFin, List.mem_finRange _, rfl⟩, by simp [h]⟩, BitVec.le_refl _,
      BitVec.le_refl _⟩

/-- The scan is existential over the 48 entries (R102). -/
theorem tlbCacheable_iff (tlb : Vector TlbEntry 48) (va : VA) :
    tlbCacheable tlb va = true ↔ ∃ e ∈ tlb.toList, e.covers va = true ∧ e.cacheable = true := by
  unfold tlbCacheable
  rw [List.any_eq_true]
  simp only [Bool.and_eq_true]

/-- The filter sees nothing but its inputs (R100). -/
theorem State.checkCache_congr {s t : State} (h1 : t.cacheEnable = s.cacheEnable) (h2 : t.tlb = s.tlb)
    (ctx : Bool) (va : VA) : t.checkCache ctx va = s.checkCache ctx va := by
  simp [State.checkCache, h1, h2]

theorem State.backed_congr {s t : State} (h : t.unbacked = s.unbacked) (pfn : Pfn) :
    t.backed pfn = s.backed pfn := by
  simp [State.backed, h]

end Sys2Proof.Machine
end

