-- ==== Sys2Proof/Laws/Flags.lean ====
section
/-! SUPPORT. Laws of the flags, victim selection and the packed tag word (`spec/30_encoding.md` R88,
`spec/41_lookup_fill.md` R113). -/

namespace Sys2Proof.Machine

theorem victimOf_eq_zero : ∀ a b : Bool, victimOf a b = 0 ↔ a = b := by decide

theorem victimOf_eq_one : ∀ a b : Bool, victimOf a b = 1 ↔ a ≠ b := by decide

/-- A bit of a flag put at a position. -/
theorem flagAt_bit (pos : Nat) (b : Bool) (i : Nat) :
    (flagAt pos b).getLsbD i = (decide (i < 6) && decide (i = pos) && b) := by
  unfold flagAt
  cases b
  · simp
  · simp only [if_true, BitVec.getLsbD_shiftLeft]
    by_cases h : i < 6
    · by_cases h2 : i = pos
      · simp [h2]
      · simp [h, h2]
        omega
    · simp [h]

/-- A bit of the packed tag word: the flag field, six zeros, the page frame (R88). -/
theorem tagWord_bit (p : Params) (e : TagEntry) (i : Nat) :
    (tagWord p e).getLsbD i =
      if i < 6 then (flagField p e).getLsbD i
      else if i < 12 then false
      else e.pfn.getLsbD (i - 12) := by
  rw [tagWord, BitVec.getLsbD_append, BitVec.getLsbD_append]
  simp only [BitVec.getLsbD_zero]
  by_cases h6 : i < 6
  · simp [h6]
  · by_cases h12 : i < 12
    · simp [h6, h12, show i - 6 < 6 by omega]
    · simp [h6, h12, show ¬ (i - 6 < 6) by omega, show i - 6 - 6 = i - 12 by omega]

end Sys2Proof.Machine
end

