-- ==== Sys2Proof/Laws/PerInstr.lean ====
section
/-! SUPPORT. Per-operation laws. -/

/-- The op code of an operation has the two fields of `spec/30_encoding.md` R82: bit 3 is the direction,
bits [2:0] the base-2 logarithm of the byte count. -/
def Sys2Proof.Laws.EncodedOp.Statement (i : Sys2Proof.Instr) : Prop :=
  (Sys2Proof.encode i).op.getLsbD 3 = i.isWrite ∧
    2 ^ ((Sys2Proof.encode i).op.extractLsb' 0 3).toNat = i.bytes

theorem Sys2Proof.Laws.EncodedOp.rd8 (ctx : Bool) (va : Sys2Proof.VA) (pfn : Sys2Proof.Pfn) :
    Sys2Proof.Laws.EncodedOp.Statement (.rd8 ctx va pfn) := by
  simp only [Sys2Proof.Laws.EncodedOp.Statement, Sys2Proof.encode, Sys2Proof.opcodeOf,
    Sys2Proof.Instr.isWrite, Sys2Proof.Instr.bytes]
  decide

theorem Sys2Proof.Laws.EncodedOp.rd16 (ctx : Bool) (va : Sys2Proof.VA) (pfn : Sys2Proof.Pfn) :
    Sys2Proof.Laws.EncodedOp.Statement (.rd16 ctx va pfn) := by
  simp only [Sys2Proof.Laws.EncodedOp.Statement, Sys2Proof.encode, Sys2Proof.opcodeOf,
    Sys2Proof.Instr.isWrite, Sys2Proof.Instr.bytes]
  decide

theorem Sys2Proof.Laws.EncodedOp.rd32 (ctx : Bool) (va : Sys2Proof.VA) (pfn : Sys2Proof.Pfn) :
    Sys2Proof.Laws.EncodedOp.Statement (.rd32 ctx va pfn) := by
  simp only [Sys2Proof.Laws.EncodedOp.Statement, Sys2Proof.encode, Sys2Proof.opcodeOf,
    Sys2Proof.Instr.isWrite, Sys2Proof.Instr.bytes]
  decide

theorem Sys2Proof.Laws.EncodedOp.rd64 (ctx : Bool) (va : Sys2Proof.VA) (pfn : Sys2Proof.Pfn) :
    Sys2Proof.Laws.EncodedOp.Statement (.rd64 ctx va pfn) := by
  simp only [Sys2Proof.Laws.EncodedOp.Statement, Sys2Proof.encode, Sys2Proof.opcodeOf,
    Sys2Proof.Instr.isWrite, Sys2Proof.Instr.bytes]
  decide

theorem Sys2Proof.Laws.EncodedOp.rd128 (ctx : Bool) (va : Sys2Proof.VA) (pfn : Sys2Proof.Pfn) :
    Sys2Proof.Laws.EncodedOp.Statement (.rd128 ctx va pfn) := by
  simp only [Sys2Proof.Laws.EncodedOp.Statement, Sys2Proof.encode, Sys2Proof.opcodeOf,
    Sys2Proof.Instr.isWrite, Sys2Proof.Instr.bytes]
  decide

theorem Sys2Proof.Laws.EncodedOp.wr8 (ctx : Bool) (va : Sys2Proof.VA) (pfn : Sys2Proof.Pfn)
    (v : BitVec 8) : Sys2Proof.Laws.EncodedOp.Statement (.wr8 ctx va pfn v) := by
  simp only [Sys2Proof.Laws.EncodedOp.Statement, Sys2Proof.encode, Sys2Proof.opcodeOf,
    Sys2Proof.Instr.isWrite, Sys2Proof.Instr.bytes]
  decide

theorem Sys2Proof.Laws.EncodedOp.wr16 (ctx : Bool) (va : Sys2Proof.VA) (pfn : Sys2Proof.Pfn)
    (v : BitVec 16) : Sys2Proof.Laws.EncodedOp.Statement (.wr16 ctx va pfn v) := by
  simp only [Sys2Proof.Laws.EncodedOp.Statement, Sys2Proof.encode, Sys2Proof.opcodeOf,
    Sys2Proof.Instr.isWrite, Sys2Proof.Instr.bytes]
  decide

theorem Sys2Proof.Laws.EncodedOp.wr32 (ctx : Bool) (va : Sys2Proof.VA) (pfn : Sys2Proof.Pfn)
    (v : BitVec 32) : Sys2Proof.Laws.EncodedOp.Statement (.wr32 ctx va pfn v) := by
  simp only [Sys2Proof.Laws.EncodedOp.Statement, Sys2Proof.encode, Sys2Proof.opcodeOf,
    Sys2Proof.Instr.isWrite, Sys2Proof.Instr.bytes]
  decide

theorem Sys2Proof.Laws.EncodedOp.wr64 (ctx : Bool) (va : Sys2Proof.VA) (pfn : Sys2Proof.Pfn)
    (v : BitVec 64) : Sys2Proof.Laws.EncodedOp.Statement (.wr64 ctx va pfn v) := by
  simp only [Sys2Proof.Laws.EncodedOp.Statement, Sys2Proof.encode, Sys2Proof.opcodeOf,
    Sys2Proof.Instr.isWrite, Sys2Proof.Instr.bytes]
  decide

theorem Sys2Proof.Laws.EncodedOp.wr128 (ctx : Bool) (va : Sys2Proof.VA) (pfn : Sys2Proof.Pfn)
    (v : BitVec 128) : Sys2Proof.Laws.EncodedOp.Statement (.wr128 ctx va pfn v) := by
  simp only [Sys2Proof.Laws.EncodedOp.Statement, Sys2Proof.encode, Sys2Proof.opcodeOf,
    Sys2Proof.Instr.isWrite, Sys2Proof.Instr.bytes]
  decide
end

