-- ==== Sys2Proof/Laws/Step.lean ====
section
/-! SUPPORT. Everything a step can do. -/

namespace Sys2Proof.Machine

/-- `getLine` leaves the filter's inputs, the ports and the parameters alone. -/
theorem State.getLine_sameInputs {s t : State} {pa : PA} {w : Way} (h : s.getLine pa = .ok (w, t)) :
    s.sameInputs t := by
  rcases State.getLine_cases h with ⟨-, rfl⟩ | ⟨-, -, -, rfl⟩
  · exact ⟨rfl, rfl, rfl, rfl, rfl, rfl⟩
  · exact ⟨rfl, rfl, rfl, rfl, rfl, rfl⟩

/-- No operation touches what is not the block's or PM (R13, R33). -/
theorem exec_sameInputs {i : Instr} {s t : State} (h : exec i s = .next t) : s.sameInputs t := by
  obtain ⟨-, ⟨-, -, r, rfl, -⟩ | ⟨-, -, v, -, rfl⟩ | ⟨-, w, u, hs, r, rfl, -⟩ | ⟨-, w, u, hs, v, -, rfl⟩⟩ :=
    exec_next_cases h
  · exact ⟨rfl, rfl, rfl, rfl, rfl, rfl⟩
  · exact ⟨rfl, rfl, rfl, rfl, rfl, rfl⟩
  · have hu := State.getLine_sameInputs hs.line
    exact hu
  · have hu := State.getLine_sameInputs hs.line
    exact hu

/-- An operation that answers shows a response. -/
theorem exec_response {i : Instr} {s t : State} (h : exec i s = .next t) : ∃ r, t.response = some r := by
  obtain ⟨-, ⟨-, -, r, rfl, -⟩ | ⟨-, -, v, -, rfl⟩ | ⟨-, w, u, hs, r, rfl, -⟩ | ⟨-, w, u, hs, v, -, rfl⟩⟩ :=
    exec_next_cases h <;> exact ⟨_, rfl⟩

/-- Everything a request at the port can lead to (R83, R166): the operation's next state, a refusal that
changes nothing but the response, or the stop of log 4. -/
theorem serveRequest_next {r : Request} {s t : State} (h : serveRequest r s = .next t) :
    (∃ i, decode r = .ok i ∧ exec i s = .next t) ∨ ∃ why, t = s.respond (.refused why) := by
  unfold serveRequest at h
  cases hd : decode r with
  | error e =>
    cases e
    simp only [hd, present, Refusal.asResponse, Host.Outcome.next.injEq] at h
    exact .inr ⟨_, h.symm⟩
  | ok i =>
    simp only [hd] at h
    cases he : exec i s with
    | next u =>
      simp only [he, present, Host.Outcome.next.injEq] at h
      subst h
      exact .inl ⟨i, rfl, he⟩
    | fault f => exact absurd he (exec_no_fault i s f)
    | refused q =>
      simp only [he, present] at h
      split at h
      · cases h
        exact .inr ⟨_, rfl⟩
      · cases h

/-- No control input touches the inputs still to be served or the parameters (R154, log 9). -/
theorem execControl_keeps {c : Control} {s t : State} (h : execControl c s = .next t) :
    t.inputs = s.inputs ∧ t.params = s.params := by
  cases c <;>
    simp only [execControl, execReset, execInit, execShutdown, execSetCacheEnable, execSetTlb,
      execSetCacheable, execWritePm, execSetBacked, execLoadState] at h
  case writePm a bytes => split at h <;> cases h; exact ⟨rfl, rfl⟩
  case loadState image => split at h <;> cases h; exact ⟨rfl, rfl⟩
  all_goals cases h; exact ⟨rfl, rfl⟩

/-- Everything a step can do: nothing, with no input; a request served; a control input (R155). -/
theorem step_next_cases {s t : State} (h : step s = .next t) :
    (s.inputs = [] ∧ t = s) ∨
    (∃ r rest, s.inputs = .request r :: rest ∧ s.running = true ∧
      serveRequest r (s.setInputs rest) = .next t) ∨
    (∃ c rest, s.inputs = .control c :: rest ∧ execControl c (s.setInputs rest) = .next t) := by
  unfold step at h
  split at h
  · cases h
    exact .inl ⟨by assumption, rfl⟩
  · split at h
    · exact .inr (.inl ⟨_, _, by assumption, by assumption, h⟩)
    · cases h
  · exact .inr (.inr ⟨_, _, by assumption, h⟩)

end Sys2Proof.Machine
end

