-- ==== Sys2Proof/Tests/Slice0.lean ====
section
/-! SUPPORT. The model's own tests: ill-formed operations, decoding, one step of each operation on the
vectors of `spec/95_test_vectors.md`, and for each obligation with hypotheses a state that meets them. -/

namespace Sys2Proof.Tests

open Sys2Proof Sys2Proof.Machine

-- One thread: the kernel evaluations below, run side by side, would each ask for a stack of their own.
set_option Elab.async false

/-! ## Helpers -/

/-- Did the machine go on? -/
def isNext : Host.Outcome State Fault Refusal → Bool
  | .next _ => true
  | .fault _ => false
  | .refused _ => false

/-- The next state, where there is one. -/
def nextState : Host.Outcome State Fault Refusal → State
  | .next t => t
  | .fault _ => State.reset
  | .refused _ => State.reset

/-- The refusal, where there is one. -/
def refusalOf : Host.Outcome State Fault Refusal → Option Refusal
  | .next _ => none
  | .fault _ => none
  | .refused r => some r

theorem eq_next {o : Host.Outcome State Fault Refusal} (h : isNext o = true) : o = .next (nextState o) := by
  cases o with
  | next t => rfl
  | fault f => cases h
  | refused r => cases h

/-- The state after an operation. -/
def after (i : Instr) (s : State) : State := nextState (exec i s)

/-- The response to an operation. -/
def answer (i : Instr) (s : State) : Option Response := (after i s).response

/-- The packed tag word of a set and way (30 section 4). -/
def tagAt (s : State) (set : SetIx) (w : Way) : BitVec 32 := tagWord s.params (s.tag set w)

/-- The conventions of 95: after RESET, the cache on, virtual 0 to 0x01FFFFFF cacheable. -/
def start : State :=
  { State.reset with cacheEnable := true, tlb := cacheableTlb [⟨0x00000000, 0x01FFFFFF⟩] }

/-- `start` with `PM[0x4000 + i] = i` for `i` in 0..63 (95 section 2.4). -/
def start4000 : State :=
  start.setPm ((List.range 63).map fun k => (0x4001 + k, BitVec.ofNat 8 (k + 1)))

/-- RV1's end state: line 0x4000 resident in set 0 way 0, clean. -/
def warm : State := after (.rd128 false 0x00004010 4) start4000

/-- WV1's end state: the line dirty. -/
def dirty : State := after (.wr16 false 0x00004012 4 0xABCD) warm

/-- P3 step 12 reached early: way 1 holds line 0x5000, the dirty line 0x4000 is the next victim. -/
def full : State := after (.rd8 false 0x00005000 5) dirty

/-- `full` with page 4 no longer plain RAM (95 X7). -/
def stranded : State := { full with unbacked := [4] }

/-- `stranded` under the policy `drop` (95 X8). -/
def strandedDrop : State := { stranded with params := { stranded.params with wbPolicy := .drop } }

/-! ## WellFormed: an ill-formed term for each check -/

theorem test_wf_misaligned :
    (Instr.rd32 false 0x00001002 1).wellFormed Params.default = false ∧
    (Instr.rd16 false 0x00001002 1).wellFormed Params.default = true := by decide

theorem test_wf_pfn_too_wide :
    (Instr.wr8 false 0x00000001 0x00010 7).wellFormed { Params.default with paBits := 16 } = false ∧
    (Instr.wr8 false 0x00000001 0x0000F 7).wellFormed { Params.default with paBits := 16 } = true := by
  decide

theorem test_wf_params :
    ¬ { Params.default with paBits := 12 }.wf ∧ ¬ { Params.default with posLock := 3 }.wf := by decide

/-! ## Decoding: words written from the operation map of 30 section 3, fields placed as log 2 says -/

theorem test_decode_rd8 :
    decodeTableWord 185 (0x00001 <<< 37 ||| 0x00001003 <<< 5 ||| 0 <<< 4 ||| 0b0000) =
      some (.rd8 false 0x00001003 1) := by decide +kernel

theorem test_decode_rd16 :
    decodeTableWord 185 (0xFFFFF <<< 37 ||| 0x0000103E <<< 5 ||| 1 <<< 4 ||| 0b0001) =
      some (.rd16 true 0x0000103E 0xFFFFF) := by decide +kernel

theorem test_decode_rd32 :
    decodeTableWord 185 (0x00001 <<< 37 ||| 0x20001000 <<< 5 ||| 0 <<< 4 ||| 0b0010) =
      some (.rd32 false 0x20001000 1) := by decide +kernel

theorem test_decode_rd64 :
    decodeTableWord 185 (0x00004 <<< 37 ||| 0xFFFFFFF8 <<< 5 ||| 0 <<< 4 ||| 0b0011) =
      some (.rd64 false 0xFFFFFFF8 4) := by decide +kernel

theorem test_decode_rd128 :
    decodeTableWord 185 (0x55 <<< 57 ||| 0x00004 <<< 37 ||| 0x00004010 <<< 5 ||| 1 <<< 4 ||| 0b0100) =
      some (.rd128 true 0x00004010 4) := by decide +kernel

theorem test_decode_wr8 :
    decodeTableWord 185 (0xFE99 <<< 57 ||| 0x00001 <<< 37 ||| 0x00001001 <<< 5 ||| 0 <<< 4 ||| 0b1000) =
      some (.wr8 false 0x00001001 1 0x99) := by decide +kernel

theorem test_decode_wr16 :
    decodeTableWord 185 (0xABCD <<< 57 ||| 0x00004 <<< 37 ||| 0x00004012 <<< 5 ||| 0 <<< 4 ||| 0b1001) =
      some (.wr16 false 0x00004012 4 0xABCD) := by decide +kernel

theorem test_decode_wr32 :
    decodeTableWord 185
      (0xDEADBEEF <<< 57 ||| 0x00001 <<< 37 ||| 0x00001000 <<< 5 ||| 1 <<< 4 ||| 0b1010) =
      some (.wr32 true 0x00001000 1 0xDEADBEEF) := by decide +kernel

theorem test_decode_wr64 :
    decodeTableWord 185
      (0x80112233445566778899 <<< 57 ||| 0x00001 <<< 37 ||| 0x00001008 <<< 5 ||| 0 <<< 4 ||| 0b1011) =
      some (.wr64 false 0x00001008 1 0x2233445566778899) := by decide +kernel

theorem test_decode_wr128 :
    decodeTableWord 185
      (0xF00102030405060708090A0B0C0D0E0F <<< 57 ||| 0x00004 <<< 37 ||| 0x00004020 <<< 5 ||| 0b1100) =
      some (.wr128 false 0x00004020 4 0xF00102030405060708090A0B0C0D0E0F) := by decide +kernel

/-- The six codes of 30 section 3 are rejected by name. -/
theorem test_decode_reserved :
    ∀ op ∈ [0b0101#4, 0b0110#4, 0b0111#4, 0b1101#4, 0b1110#4, 0b1111#4],
      decode { op := op, staticCtx := false, va := 0, pfn := 0, wdata := 0 } = .error .reservedOp := by
  intro op h
  simp only [List.mem_cons, List.not_mem_nil, or_false] at h
  rcases h with rfl | rfl | rfl | rfl | rfl | rfl <;> rfl

/-! ## The packed words of 30 section 4, and `target` of 95 section 1 -/

theorem test_tag_words :
    tagWord Params.default TagEntry.empty = 0x00000000 ∧
    tagWord Params.default { TagEntry.empty with pfn := 1, valid := true, lrf := true } = 0x00001018 ∧
    tagWord Params.default { TagEntry.empty with pfn := 1, dirty := true, valid := true, lrf := true } =
      0x00001038 ∧
    tagWord Params.default { TagEntry.empty with pfn := 0x01FFF, dirty := true, valid := true } =
      0x01FFF030 := by decide +kernel

theorem test_targets :
    targetOfWord 0x00001038 0 = 0x00001000 ∧ targetOfWord 0x00001038 5 = 0x00001140 ∧
    targetOfWord 0xFFFFF038 63 = 0xFFFFFFC0 := by decide +kernel

/-! ## The filter: CF1 to CF8 -/

theorem test_filter_vectors :
    start.checkCache false 0x00001000 = true ∧ start.checkCache false 0x20001000 = false ∧
    { start with cacheEnable := false }.checkCache false 0x00001000 = false ∧
    start.checkCache true 0x00001000 = false ∧
    start.checkCache false 0x01FFFFFF = true ∧ start.checkCache false 0x02000000 = false := by
  decide +kernel

/-- CF5: an entry that covers and is cacheable is enough, whatever a later one says. -/
theorem test_filter_existential :
    tlbCacheable (((Vector.replicate 48 TlbEntry.none).set 3 ⟨[⟨0x1000, 0x1FFF⟩], true⟩).set 7
      ⟨[⟨0, 0xFFFFFFFF⟩], false⟩) 0x1000 = true := by decide +kernel

/-! ## Lookup and victim: LK1 to LK6, VS1 to VS4, GF3, GF5, GF6 -/

theorem test_lookup :
    let s := ((start.setTag 5 0 { TagEntry.empty with pfn := 1, valid := true, dirty := true }).setTag 5 1
      { TagEntry.empty with pfn := 3, valid := true }).setTag 6 0 { TagEntry.empty with pfn := 1 }
    s.findInCache 5 1 = some 0 ∧ s.findInCache 5 3 = some 1 ∧ s.findInCache 5 2 = none ∧
    s.findInCache 6 1 = none ∧ start.findInCache 0 0 = none := by decide +kernel

theorem test_victim :
    victimOf false false = 0 ∧ victimOf true false = 1 ∧ victimOf true true = 0 ∧
    victimOf false true = 1 := by decide

/-- P3 step 13, the write-back: way 0 is replaced, its 64 bytes reach PM. -/
theorem test_eviction_writes_back :
    tagAt full 0 1 = 0x00005018 ∧ tagAt (after (.rd8 false 0x00006000 6) full) 0 0 = 0x00006010 ∧
    (after (.rd8 false 0x00006000 6) full).pm.readBytes 0x4010 4 = [0x10, 0x11, 0xCD, 0xAB] ∧
    full.pm.readBytes 0x4010 4 = [0x10, 0x11, 0x12, 0x13] := by decide +kernel

/-- GF5: the top line of the address space is written back without a wrap. -/
theorem test_eviction_top_line :
    let s := (((start.setTag 63 0
      { TagEntry.empty with pfn := 0xFFFFF, valid := true, dirty := true, lrf := true }).setTag 63 1
      { TagEntry.empty with valid := true, lrf := true }).setLine 63 0 (Vector.replicate 64 0x5A))
    let t := after (.rd8 false 0x00001FC0 1) s
    tagAt t 63 0 = 0x00001010 ∧ t.pm.read 0xFFFFFFFF = 0x5A ∧ t.pm.read 0 = 0 := by decide +kernel

/-- GF6: LOCK is not tested and survives the fill. -/
theorem test_lock_is_inert :
    (after (.rd8 false 0x00001000 1)
      (start.setTag 0 0 { TagEntry.empty with lock := true, valid := true, pfn := 9 })).tag 0 0 =
      { pfn := 1, dirty := false, valid := true, lrf := true, lock := true, rsv := 0 } := by
  decide +kernel

/-! ## One step of each operation: RV1 to RV10, WV1 to WV12 -/

theorem test_rd8_last_byte_of_line : answer (.rd8 false 0x0000403F 4) warm = some (.data8 0x3F) := by
  decide +kernel

/-- RV10: never a false hit on the reset tag. -/
theorem test_rd8_page_zero :
    answer (.rd8 false 0x00000000 0) (start.setPm [(0, 0x5A)]) = some (.data8 0x5A) ∧
    tagAt (after (.rd8 false 0x00000000 0) (start.setPm [(0, 0x5A)])) 0 0 = 0x00000018 := by
  decide +kernel

theorem test_rd16_hit : answer (.rd16 false 0x00004012 4) warm = some (.data16 0x1312) := by
  decide +kernel

theorem test_rd32_after_write : answer (.rd32 false 0x00004010 4) dirty = some (.data32 0xABCD1110) := by
  decide +kernel

/-- RV9 and P3: the static context goes round the cache and sees PM. -/
theorem test_rd32_static_is_stale :
    answer (.rd32 true 0x00004010 4) dirty = some (.data32 0x13121110) := by decide +kernel

theorem test_rd64_last_offset :
    answer (.rd64 false 0x00004038 4) warm = some (.data64 0x3F3E3D3C3B3A3938) := by decide +kernel

theorem test_rd64_after_write :
    answer (.rd64 false 0x00004010 4) dirty = some (.data64 0x17161514ABCD1110) := by decide +kernel

/-- RV1. -/
theorem test_rd128_miss :
    warm.response = some (.data128 0x1F1E1D1C1B1A19181716151413121110) ∧ tagAt warm 0 0 = 0x00004018 := by
  decide +kernel

theorem test_rd128_last_offset :
    answer (.rd128 false 0x00004030 4) warm = some (.data128 0x3F3E3D3C3B3A39383736353433323130) := by
  decide +kernel

/-- WV10: the write of an equal value sets DIRTY all the same. -/
theorem test_wr8_same_value :
    tagAt (after (.wr8 false 0x00001000 1 0x42) (start.setPm [(0x1000, 0x42)])) 0 0 = 0x00001038 := by
  decide +kernel

/-- WV11. -/
theorem test_wr8_bypass :
    (after (.wr8 true 0x00001001 1 0x55) start).pm = [(0x1001, 0x55)] ∧
    (after (.wr8 true 0x00001001 1 0x55) start).tags = start.tags := by decide +kernel

/-- WV1. -/
theorem test_wr16_hit :
    tagAt dirty 0 0 = 0x00004038 ∧ (dirty.line 0 0)[0x12] = 0xCD ∧ (dirty.line 0 0)[0x13] = 0xAB ∧
    dirty.pm = warm.pm := by decide +kernel

/-- P1 step 1. -/
theorem test_wr32_allocates :
    let t := after (.wr32 false 0x00001000 1 0xDEADBEEF) start
    tagAt t 0 0 = 0x00001038 ∧ (t.line 0 0)[0] = 0xEF ∧ (t.line 0 0)[3] = 0xDE ∧ t.pm = [] ∧
    t.response = some .done := by decide +kernel

/-- P4 step 4: a write round the cache. -/
theorem test_wr32_bypass :
    (after (.wr32 false 0x20001004 1 0x55667788) start).pm.readBytes 0x1004 4 = [0x88, 0x77, 0x66, 0x55] := by
  decide +kernel

/-- WV12. -/
theorem test_wr64_top_of_memory :
    let t := after (.wr64 false 0xFFFFFFF8 0xFFFFF 0x1122334455667788)
      { start with tlb := cacheableTlb [⟨0, 0xFFFFFFFF⟩] }
    tagAt t 63 0 = 0xFFFFF038 ∧ (t.line 63 0)[56] = 0x88 ∧ (t.line 63 0)[63] = 0x11 := by decide +kernel

/-- WV7. -/
theorem test_wr128_hit :
    let t := after (.wr128 false 0x00004020 4 0x000102030405060708090A0B0C0D0E0F) warm
    (t.line 0 0)[0x20] = 0x0F ∧ (t.line 0 0)[0x2F] = 0x00 ∧ (t.line 0 0)[0x2E] = 0x01 ∧
    (t.line 0 0)[0x30] = 0x30 := by decide +kernel

/-! ## Refusals (95 section 2.7), RESET, the environment -/

/-- X3 and X6: alignment comes before the filter. -/
theorem test_misaligned :
    exec (.rd32 false 0x00001002 1) start = .refused .misaligned ∧
    exec (.rd32 false 0x20001002 1) start = .refused .misaligned ∧
    isNext (exec (.rd16 false 0x00001002 1) start) = true := ⟨rfl, rfl, by decide +kernel⟩

/-- X1 and X2: a reserved code wins over a misaligned address; nothing else changes. -/
theorem test_reserved_wins :
    step (start.setInputs [.request ⟨0b1111, false, 0x00001001, 1, 0⟩]) =
      .next (start.respond (.refused .reservedOp)) := rfl

/-- X7 and X8. -/
theorem test_stranded_victim :
    isNext (exec (.rd8 false 0x00006000 6) stranded) = false ∧
    answer (.rd8 false 0x00006000 6) strandedDrop = some (.data8 0) ∧
    tagAt (after (.rd8 false 0x00006000 6) strandedDrop) 0 0 = 0x00006010 ∧
    (after (.rd8 false 0x00006000 6) strandedDrop).pm = warm.pm := by decide +kernel

/-- S6: RESET discards the dirty line. -/
theorem test_reset_discards :
    let t := nextState (execControl .reset dirty)
    tagAt t 0 0 = 0 ∧ t.pm = warm.pm ∧
    answer (.rd32 false 0x00004010 4) t = some (.data32 0x13121110) := by decide +kernel

/-- RESET after Shutdown (44 section 1): the next request is served again. -/
theorem test_reset_after_shutdown :
    isNext (step { full with running := false, inputs := [.request ⟨0, false, 0, 0, 0⟩] }) = false ∧
    let t := nextState (step { full with running := false, inputs := [.control .reset] })
    t.running = true ∧ tagAt t 0 0 = 0 ∧ isNext (exec (.rd8 false 0 0) t) = true := by decide +kernel

/-- A peek of the last byte of the space, and of one byte too many. -/
theorem test_peek_bounds :
    start.peek 0xFFFFFFFF 1 = some [0] ∧ start.peek 0xFFFFFFFF 2 = none ∧
    { start with params := { start.params with paBits := 16 } }.peek 0x00010000 1 = none := by
  decide +kernel

/-- A placed word is the first instruction after reset. -/
theorem test_first_instruction_after_reset :
    isNext (step (State.reset.withFetchWord 8 0b0000)) = true ∧
    (nextState (step (State.reset.withFetchWord 8 0b0000))).response = some (.data8 0) ∧
    (nextState (step (State.reset.withFetchWord 8 0b1100))).response = some .done := by decide +kernel

/-! ## Witnesses: for each obligation with hypotheses, what meets all of them together

`next i s` below is the premise `exec i s = .next t` at the state the operation leaves. -/

/-- The operation completes, with the state it leaves as the next one. -/
theorem next {i : Instr} {s : State} (h : isNext (exec i s) = true) : exec i s = .next (after i s) :=
  eq_next h

/-- The request of an operation, as the oldest input of a block. -/
def offered (i : Instr) (s : State) : State := s.setInputs [.request (encode i), .control .reset]

theorem test_witness_StepServesOldestRequest :
    (offered (.rd8 false 0x00004013 4) warm).running = true ∧
    decode (encode (.rd8 false 0x00004013 4)) = .ok (.rd8 false 0x00004013 4) ∧
    exec (.rd8 false 0x00004013 4) (warm.setInputs [.control .reset]) =
      .next (after (.rd8 false 0x00004013 4) (warm.setInputs [.control .reset])) :=
  ⟨by decide +kernel, rfl, next (by decide +kernel)⟩

/-- The three refusals of `StepServesOldestRequest`, each met. -/
theorem test_witness_StepServesOldestRequest_refusals :
    exec (.rd16 false 0x00004013 4) (warm.setInputs []) = .refused .misaligned ∧
    exec (.rd8 false 0x00006000 6) { stranded with inputs := [] } = .refused .writebackUnbacked ∧
    exec (.rd8 false 0x00004000 4) { stranded with inputs := [] } = .refused .pageNotRam := by
  have h : ∀ {i s r}, refusalOf (exec i s) = some r → exec i s = .refused r := by
    intro i s r h
    cases hx : exec i s <;> simp_all [refusalOf]
  exact ⟨rfl, h (by decide +kernel), h (by decide +kernel)⟩

theorem test_witness_InputsServedInArrivalOrder :
    (offered (.wr8 false 0x00004013 4 1) warm).inputs =
      [.request (encode (.wr8 false 0x00004013 4 1)), .control .reset] ∧
    step (offered (.wr8 false 0x00004013 4 1) warm) =
      .next (nextState (step (offered (.wr8 false 0x00004013 4 1) warm))) ∧ dirty.inputs = [] ∧
    (offered (.wr8 false 0x00004013 4 1) { warm with running := false }).inputs =
      [.request (encode (.wr8 false 0x00004013 4 1)), .control .reset] ∧
    (dirty.setInputs [.control (.setCacheEnable false)]).inputs = [.control (.setCacheEnable false)] :=
  ⟨rfl, eq_next (by decide +kernel), by decide +kernel, rfl, rfl⟩

/-- P4 step 2: `ENABLE 0` as an input of the step. -/
theorem test_enable_is_served :
    (nextState (step (dirty.setInputs [.control (.setCacheEnable false)]))).cacheEnable = false ∧
    (nextState (step (dirty.setInputs [.control (.setCacheEnable false)]))).tags = dirty.tags := by
  decide +kernel

/-- Both ends of the reserved range, 5 and 7, in both directions. -/
theorem test_witness_ReservedCodesAnswerReservedOp :
    (start.setInputs [.request ⟨0b1101, false, 0x00001001, 1, 0⟩]).running = true ∧
    5 ≤ ((0b1101#4).extractLsb' 0 3).toNat ∧ 5 ≤ ((0b0111#4).extractLsb' 0 3).toNat ∧
    ¬ 5 ≤ ((0b1100#4).extractLsb' 0 3).toNat := by decide +kernel

theorem test_witness_DecodeUsesOnlyItsOperands :
    decode ⟨0b1000, false, 0x00001001, 1, 0xFE99⟩ = .ok (.wr8 false 0x00001001 1 0x99) ∧
    ∀ k < 8, (0x99#128).getLsbD k = (0xFE99#128).getLsbD k := ⟨rfl, by decide +kernel⟩

/-- The widest frame that a port of 16-bit addresses takes, and the first that it does not (log 10). -/
theorem test_witness_AlignedAccessStaysInLine_frame :
    let p := { Params.default with paBits := 16 }
    p.wf ∧ (0x0000F#20).toNat < 2 ^ (p.paBits - 12) ∧ ¬ (0x00010#20).toNat < 2 ^ (p.paBits - 12) ∧
    physAddr p 0x0000F 0x20001234 = 0x0000F234 ∧ physAddr p 0x00010 0x20001234 = 0x00000234 := by
  decide +kernel

/-- For the premise of `BackedChangeIsLocal` on a frame that fits the port. -/
theorem test_witness_BackedChangeIsLocal :
    (0xFFFFF#20).toNat < 2 ^ (full.params.paBits - 12) := by decide +kernel

theorem test_witness_AlignedAccessStaysInLine :
    start.params.wf ∧ (Instr.rd128 false 0xFFFFFFF0 0xFFFFF).aligned = true ∧
    (Instr.rd8 false 0x0000103F 1).aligned = true := by decide +kernel

/-- Two legal choices of the flag positions. -/
theorem test_witness_TagWordUnpacks :
    Params.default.wf ∧
    { Params.default with posDirty := 0, posValid := 3, posLrf := 1, posLock := 5 }.wf := by decide

theorem test_witness_CanonicalMemoriesAreEqual :
    (start4000.pm).wf ∧ (Memory.write start4000.pm 0x4001 1).wf ∧
    ∀ a, start4000.pm.read a = (Memory.write start4000.pm 0x4001 1).read a := by
  have h : Memory.write start4000.pm 0x4001 1 = start4000.pm := by decide +kernel
  exact ⟨by decide +kernel, by decide +kernel, fun a => by rw [h]⟩

theorem test_witness_FilterConditions :
    start.checkCache false 0x00001000 = true ∧ warm.cacheEnable = start4000.cacheEnable ∧
    warm.tlb = start4000.tlb ∧ warm ≠ start4000 := by decide +kernel

/-- A page outside the TLB's range, and the static context, at the last aligned offset of a line. -/
theorem test_witness_BypassReadsReturnMemory :
    start4000.presentable (.rd128 false 0x20004030 4) ∧ ¬ start4000.cached (.rd128 false 0x20004030 4) ∧
    start4000.presentable (.rd8 true 0x0000403F 4) ∧ ¬ start4000.cached (.rd8 true 0x0000403F 4) := by
  decide +kernel

theorem test_witness_ReadHitsReturnTheLine :
    warm.presentable (.rd128 false 0x00004030 4) ∧ warm.cached (.rd128 false 0x00004030 4) ∧
    warm.hits (.rd128 false 0x00004030 4) ∧ dirty.hits (.rd8 false 0x0000403F 4) := by decide +kernel

/-- Both with a victim that is written back and with one that is not. -/
theorem test_witness_ReadMissesFillTheLine :
    start.presentable (.rd64 false 0x00001038 1) ∧ start.cached (.rd64 false 0x00001038 1) ∧
    ¬ start.hits (.rd64 false 0x00001038 1) ∧ ¬ start.strandedVictim 0 ∧
    full.presentable (.rd64 false 0x00006038 6) ∧ full.cached (.rd64 false 0x00006038 6) ∧
    ¬ full.hits (.rd64 false 0x00006038 6) ∧ full.writesBack 0 := by decide +kernel

/-- The last bytes of the physical address space, round the cache. -/
theorem test_witness_BypassWritesStoreInMemory :
    start.presentable (.wr16 false 0xFFFFFFFE 0xFFFFF 0xABCD) ∧
    ¬ start.cached (.wr16 false 0xFFFFFFFE 0xFFFFF 0xABCD) ∧
    start.presentable (.wr128 true 0x00000000 0 7) ∧ ¬ start.cached (.wr128 true 0x00000000 0 7) := by
  decide +kernel

theorem test_witness_WriteHitsChangeTheLine :
    warm.presentable (.wr32 false 0x0000403C 4 7) ∧ warm.cached (.wr32 false 0x0000403C 4 7) ∧
    warm.hits (.wr32 false 0x0000403C 4 7) ∧ dirty.hits (.wr128 false 0x00004000 4 7) := by
  decide +kernel

theorem test_witness_WriteMissesAllocate :
    start.presentable (.wr64 false 0x00001038 1 7) ∧ start.cached (.wr64 false 0x00001038 1 7) ∧
    ¬ start.hits (.wr64 false 0x00001038 1 7) ∧ ¬ start.strandedVictim 0 ∧
    full.presentable (.wr8 false 0x0000603F 6 7) ∧ full.cached (.wr8 false 0x0000603F 6 7) ∧
    ¬ full.hits (.wr8 false 0x0000603F 6 7) ∧ full.writesBack 0 := by decide +kernel

/-- Pages all plain RAM; and the policy `drop` with a page that is not. -/
theorem test_witness_PresentedOperationsComplete :
    full.presentable (.wr8 false 0x00006000 6 7) ∧ (∀ pfn, full.backed pfn = true) ∧
    strandedDrop.presentable (.rd8 false 0x00006000 6) ∧ strandedDrop.params.wbPolicy = .drop := by
  have h : full.unbacked = [] := by decide +kernel
  exact ⟨by decide +kernel, fun q => by rw [State.backed, h]; rfl, by decide +kernel, by decide +kernel⟩

/-- A request that is refused, with the machine going on. -/
theorem test_witness_RequestsNeverStopOnPlainRam :
    (offered (.rd16 false 0x00001001 1) full).unbacked = [] ∧
    (offered (.rd16 false 0x00001001 1) full).running = true ∧
    (offered (.rd16 false 0x00001001 1) full).inputs =
      [.request (encode (.rd16 false 0x00001001 1)), .control .reset] := by decide +kernel

theorem test_witness_ReadPortUpperBitsZero :
    (Response.data16 0x1312).dataOf 2 fun k => if k = 0 then 0x12 else 0x13 := by
  refine ⟨rfl, ?_⟩
  decide

/-- For `OperationsLeaveInputsAlone`, `FrameOfTheArrays`, `FrameOfMemory` and
`FlagsChangeOnlyByFillAndWrite`: an operation round the cache, a read hit, a write hit, a miss without and
a miss with a write-back complete. -/
theorem test_witness_frames :
    (exec (.wr8 true 0x00004000 4 7) dirty = .next (after (.wr8 true 0x00004000 4 7) dirty) ∧
      ¬ dirty.cached (.wr8 true 0x00004000 4 7)) ∧
    (exec (.rd8 true 0x00004000 4) dirty = .next (after (.rd8 true 0x00004000 4) dirty) ∧
      ¬ dirty.cached (.rd8 true 0x00004000 4)) ∧
    (exec (.rd8 false 0x00004000 4) dirty = .next (after (.rd8 false 0x00004000 4) dirty) ∧
      dirty.cached (.rd8 false 0x00004000 4) ∧ dirty.hits (.rd8 false 0x00004000 4)) ∧
    (exec (.wr8 false 0x00004000 4 7) dirty = .next (after (.wr8 false 0x00004000 4 7) dirty) ∧
      dirty.cached (.wr8 false 0x00004000 4 7) ∧ dirty.hits (.wr8 false 0x00004000 4 7)) ∧
    (exec (.rd8 false 0x00005000 5) dirty = .next (after (.rd8 false 0x00005000 5) dirty) ∧
      dirty.cached (.rd8 false 0x00005000 5) ∧ ¬ dirty.hits (.rd8 false 0x00005000 5) ∧
      ¬ dirty.writesBack 0) ∧
    (exec (.wr8 false 0x00006000 6 7) full = .next (after (.wr8 false 0x00006000 6 7) full) ∧
      full.cached (.wr8 false 0x00006000 6 7) ∧ ¬ full.hits (.wr8 false 0x00006000 6 7) ∧
      full.writesBack 0) :=
  ⟨⟨next (by decide +kernel), by decide +kernel⟩, ⟨next (by decide +kernel), by decide +kernel⟩,
    ⟨next (by decide +kernel), by decide +kernel⟩, ⟨next (by decide +kernel), by decide +kernel⟩,
    ⟨next (by decide +kernel), by decide +kernel⟩, ⟨next (by decide +kernel), by decide +kernel⟩⟩

/-- For the premises on flags of `FlagsChangeOnlyByFillAndWrite`: LRF flips, DIRTY is cleared, DIRTY is set. -/
theorem test_witness_flags :
    ((after (.rd8 false 0x00005000 5) dirty).tag 0 1).lrf ≠ (dirty.tag 0 1).lrf ∧
    (full.tag 0 0).dirty = true ∧ ((after (.rd8 false 0x00006000 6) full).tag 0 0).dirty = false ∧
    (warm.tag 0 0).dirty = false ∧ (dirty.tag 0 0).dirty = true := by decide +kernel

/-- For `VictimIsXorOfLrf`, both ways, and `FillsAlternate`. -/
theorem test_witness_VictimIsXorOfLrf :
    (dirty.cached (.rd8 false 0x00005000 5) ∧ ¬ dirty.hits (.rd8 false 0x00005000 5) ∧
      exec (.rd8 false 0x00005000 5) dirty = .next (after (.rd8 false 0x00005000 5) dirty) ∧
      ((1 : Way) = 1 ↔ (dirty.tag 0 0).lrf ≠ (dirty.tag 0 1).lrf)) ∧
    (full.cached (.rd8 false 0x00006000 6) ∧ ¬ full.hits (.rd8 false 0x00006000 6) ∧
      exec (.rd8 false 0x00006000 6) full = .next (after (.rd8 false 0x00006000 6) full) ∧
      ((0 : Way) = 1 ↔ (full.tag 0 0).lrf ≠ (full.tag 0 1).lrf)) :=
  ⟨⟨by decide +kernel, by decide +kernel, next (by decide +kernel), by decide +kernel⟩,
    ⟨by decide +kernel, by decide +kernel, next (by decide +kernel), by decide +kernel⟩⟩

/-- For `MissWritesBackTheWholeLine` and the last clause of `MemoryUpdatedOnlyAtEviction`. -/
theorem test_witness_MissWritesBackTheWholeLine :
    full.cached (.wr8 false 0x00006000 6 7) ∧ ¬ full.hits (.wr8 false 0x00006000 6 7) ∧
    full.writesBack (full.setIx (.wr8 false 0x00006000 6 7)) ∧
    exec (.wr8 false 0x00006000 6 7) full = .next (after (.wr8 false 0x00006000 6 7) full) :=
  ⟨by decide +kernel, by decide +kernel, by decide +kernel, next (by decide +kernel)⟩

/-- For the first two clauses of `MemoryUpdatedOnlyAtEviction`: a write that hits, a miss with a clean
victim. -/
theorem test_witness_MemoryUpdatedOnlyAtEviction :
    (warm.cached (.wr8 false 0x00004000 4 7) ∧ warm.hits (.wr8 false 0x00004000 4 7) ∧
      exec (.wr8 false 0x00004000 4 7) warm = .next (after (.wr8 false 0x00004000 4 7) warm)) ∧
    (warm.cached (.wr8 false 0x00005000 5 7) ∧ ¬ warm.hits (.wr8 false 0x00005000 5 7) ∧
      ¬ ((warm.victimTag 0).dirty = true ∧ (warm.victimTag 0).valid = true) ∧
      exec (.wr8 false 0x00005000 5 7) warm = .next (after (.wr8 false 0x00005000 5 7) warm)) :=
  ⟨⟨by decide +kernel, by decide +kernel, next (by decide +kernel)⟩,
    ⟨by decide +kernel, by decide +kernel, by decide +kernel, next (by decide +kernel)⟩⟩

theorem test_witness_StrandedVictimRefused :
    stranded.presentable (.rd8 false 0x00006000 6) ∧ stranded.cached (.rd8 false 0x00006000 6) ∧
    ¬ stranded.hits (.rd8 false 0x00006000 6) ∧
    stranded.strandedVictim (stranded.setIx (.rd8 false 0x00006000 6)) ∧
    stranded.params.wbPolicy = .refuse := by decide +kernel

theorem test_witness_StrandedVictimDropped :
    strandedDrop.presentable (.wr8 false 0x00006000 6 7) ∧
    strandedDrop.cached (.wr8 false 0x00006000 6 7) ∧ ¬ strandedDrop.hits (.wr8 false 0x00006000 6 7) ∧
    strandedDrop.strandedVictim (strandedDrop.setIx (.wr8 false 0x00006000 6 7)) ∧
    strandedDrop.params.wbPolicy = .drop := by decide +kernel

/-- One operation of each alignment, one byte off. -/
theorem test_witness_MisalignedRefused :
    (Instr.rd16 false 0x0000103F 1).aligned = false ∧ (Instr.rd32 false 0x00001002 1).aligned = false ∧
    (Instr.wr64 true 0x00001004 1 1).aligned = false ∧ (Instr.wr128 false 0x00001008 1 1).aligned = false := by
  decide

theorem test_witness_PageNotRamStops :
    (Instr.rd32 true 0x00004000 4).aligned = true ∧
    stranded.backed (pfnOf (stranded.pa (.rd32 true 0x00004000 4))) = false := by decide +kernel

theorem test_witness_RefusedRequestsChangeNothing :
    step (offered (.rd16 false 0x00001001 1) full) =
      .next (nextState (step (offered (.rd16 false 0x00001001 1) full))) ∧
    (nextState (step (offered (.rd16 false 0x00001001 1) full))).response =
      some (.refused .misaligned) := ⟨eq_next (by decide +kernel), by decide +kernel⟩

/-- A write of 16 bytes, a read of its last 8, through another cacheable address of the same bytes. -/
theorem test_witness_CachedReadsSeeCachedWrite :
    let s := { warm with tlb := cacheableTlb [⟨0, 0x01FFFFFF⟩, ⟨0x80000000, 0x81FFFFFF⟩] }
    let i := Instr.wr128 false 0x00004010 4 7
    let j := Instr.rd64 false 0x80004018 4
    (i.isWrite = true ∧ s.cached i ∧ j.isWrite = false ∧ (after i s).presentable j ∧ (after i s).cached j ∧
      ((after i s).pa j).toNat = (s.pa i).toNat + 8 ∧ 8 + j.bytes ≤ i.bytes) ∧
    exec i s = .next (after i s) := ⟨by decide +kernel, next (by decide +kernel)⟩

theorem test_witness_BypassReadsSeeStaleMemory :
    let i := Instr.wr16 false 0x00004012 4 0xABCD
    let j := Instr.rd32 false 0x20004010 4
    (i.isWrite = true ∧ warm.cached i ∧ j.isWrite = false ∧ (after i warm).presentable j ∧
      ¬ (after i warm).cached j ∧ lineBase ((after i warm).pa j) = lineBase (warm.pa i)) ∧
    exec i warm = .next (after i warm) := ⟨by decide +kernel, next (by decide +kernel)⟩

/-- The whole line, after a write that missed and wrote another line back. -/
theorem test_witness_PeeksDoNotSeeCachedWrite :
    let i := Instr.wr8 false 0x00006000 6 7
    (i.isWrite = true ∧ full.cached i ∧ (lineBase (full.pa i)).toNat ≤ (0x00006000#32).toNat ∧
      (0x00006000#32).toNat + 64 ≤ (lineBase (full.pa i)).toNat + 64 ∧ full.params.wf) ∧
    exec i full = .next (after i full) := ⟨by decide +kernel, next (by decide +kernel)⟩

theorem test_witness_ReadHitsIgnoreMemory :
    (Instr.rd8 false 0x00004013 4).isWrite = false ∧ dirty.presentable (.rd8 false 0x00004013 4) ∧
    dirty.cached (.rd8 false 0x00004013 4) ∧ dirty.hits (.rd8 false 0x00004013 4) := by decide +kernel

/-- A second state that differs in set 1. -/
theorem test_witness_OtherSetsDoNotMatter :
    let s' := dirty.setTag 1 0 { TagEntry.empty with valid := true, pfn := 4 }
    s' ≠ dirty ∧ s'.pm = dirty.pm ∧ dirty.sameInputs s' ∧
    (∀ w, s'.tag 0 w = dirty.tag 0 w ∧ s'.line 0 w = dirty.line 0 w) ∧
    dirty.setIx (.rd8 false 0x00005000 5) = 0 ∧
    isNext (exec (.rd8 false 0x00005000 5) dirty) = true := by decide +kernel

/-- Other positions; an operation that completes and one that is refused. -/
theorem test_witness_FlagPositionsUnobservable :
    let p := { full.params with posDirty := 0, posValid := 1, posLrf := 2, posLock := 3 }
    p ≠ full.params ∧ p.paBits = full.params.paBits ∧ p.wbPolicy = full.params.wbPolicy ∧
    isNext (exec (.rd8 false 0x00006000 6) full) = true ∧
    isNext (exec (.rd8 false 0x00006000 6) stranded) = false := by decide +kernel

/-- WV9: lines 0x4000 (dirty) and 0x5000 give way to 0x2000 and 0x3000. -/
theorem test_witness_EvictTwoReplacesTheSet :
    let a := Instr.rd8 false 0x00002000 2
    let b := Instr.rd8 false 0x00003000 3
    full.presentable a ∧ full.presentable b ∧ full.cached a ∧ full.cached b ∧ full.setIx a = 0 ∧
    full.setIx b = 0 ∧ pfnOf (full.pa a) ≠ pfnOf (full.pa b) ∧ ¬ full.hits a ∧ ¬ full.hits b ∧
    (∀ w, full.backed (full.tag 0 w).pfn = true) ∧
    ¬ ((full.tag 0 0).valid = true ∧ (full.tag 0 1).valid = true ∧
      (full.tag 0 0).pfn = (full.tag 0 1).pfn) ∧
    (full.tag 0 0).dirty = true := by decide +kernel

/-- X is line 0x4000 in way 0; the first of the three reads finds its line resident. -/
theorem test_witness_ThreeReadsEvictALine :
    let va : Fin 3 → VA := ![0x00005000, 0x00002000, 0x00003000]
    let pfn : Fin 3 → Pfn := ![5, 2, 3]
    (full.tag 0 0).valid = true ∧ (full.tag 0 0).dirty = true ∧ (full.tag 0 0).pfn = 4 ∧
    ¬ ((full.tag 0 0).valid = true ∧ (full.tag 0 1).valid = true ∧
      (full.tag 0 0).pfn = (full.tag 0 1).pfn) ∧
    (∀ q, full.backed q = true) ∧
    (∀ k, full.cached (.rd8 false (va k) (pfn k)) ∧ full.setIx (.rd8 false (va k) (pfn k)) = 0 ∧
      pfnOf (full.pa (.rd8 false (va k) (pfn k))) ≠ 4) ∧
    ∀ k l, k ≠ l →
      pfnOf (full.pa (.rd8 false (va k) (pfn k))) ≠ pfnOf (full.pa (.rd8 false (va l) (pfn l))) := by
  have h : full.unbacked = [] := by decide +kernel
  exact ⟨by decide +kernel, by decide +kernel, by decide +kernel, by decide +kernel,
    fun q => by rw [State.backed, h]; rfl, by decide +kernel, by decide +kernel⟩

/-- A block that exists, and one that was shut down. -/
theorem test_witness_ResetEmptiesTheArrays :
    (dirty.setInputs [.control .reset]).inputs = .control .reset :: [] ∧
    ({ dirty with running := false, inputs := [.control .reset] } : State).inputs = .control .reset :: [] :=
  ⟨rfl, rfl⟩

/-- Page 0, whose tag is that of an empty entry, and the line that was dirty. -/
theorem test_witness_AfterResetReadsReturnMemory :
    let t := nextState (execControl .reset dirty)
    execControl .reset dirty = .next t ∧ t.presentable (.rd8 false 0x00000000 0) ∧
    t.cached (.rd8 false 0x00000000 0) ∧ t.presentable (.rd32 false 0x00004010 4) ∧
    t.cached (.rd32 false 0x00004010 4) := by
  refine ⟨eq_next (by decide +kernel), ?_⟩
  decide +kernel

/-- The inputs that `ShutdownEndsTheBlock` speaks of, left to serve after Shutdown. -/
theorem test_witness_ShutdownEndsTheBlock :
    (nextState (execControl .shutdown (offered (.rd8 false 0x00004013 4) dirty))).inputs =
      [.request (encode (.rd8 false 0x00004013 4)), .control .reset] := by decide +kernel

/-- An action that is none of RESET, Init and a save-state load, at a full block. -/
theorem test_witness_EnvironmentLeavesArraysAlone :
    Control.setBacked 4 false ≠ .reset ∧ Control.setBacked 4 false ≠ .init ∧
    (∀ image, Control.setBacked 4 false ≠ .loadState image) ∧
    execControl (.setBacked 4 false) full = .next (nextState (execControl (.setBacked 4 false) full)) :=
  ⟨by decide, by decide, by simp, eq_next (by decide +kernel)⟩

/-- The premises of the clauses that `setBacked` does not meet, met by `ENABLE`. -/
theorem test_witness_EnvironmentLeavesArraysAlone_backed :
    (∀ pfn ram, Control.setCacheEnable false ≠ .setBacked pfn ram) ∧
    execControl (.setCacheEnable false) full =
      .next (nextState (execControl (.setCacheEnable false) full)) :=
  ⟨by simp, eq_next (by decide +kernel)⟩

/-- The last address of the space, and one byte too many. -/
theorem test_witness_AgentWritesReachMemoryOnly :
    (0xFFFFFFFE#32).toNat + [0xAA#8, 0xBB#8].length ≤ 2 ^ start.params.paBits ∧
    2 ^ start.params.paBits < (0xFFFFFFFF#32).toNat + [0xAA#8, 0xBB#8].length := by decide +kernel

/-- An image with the last address of the space, and with one address twice; and an image one byte beyond. -/
theorem test_witness_SaveStateLoadReplacesMemory :
    (∀ c ∈ [((0xFFFFFFFF, 1) : Host.Cell), (0, 2), (0, 3)], c.1 < 2 ^ full.params.paBits) ∧
    (∀ d ∈ [((0xFFFFFFFF, 1) : Host.Cell)], d.1 ≠ 0) ∧
    (∀ c ∈ [((0xFFFFFFFF, 1) : Host.Cell), (0, 2), (0, 3)], c.1 ≠ 1) ∧
    2 ^ full.params.paBits ≤ ((0x100000000, 1) : Host.Cell).1 := by decide +kernel

/-- The first entry of an address counts (log 22); beyond the space there is a fault (log 23). -/
theorem test_load_state :
    (nextState (execControl (.loadState [(0, 2), (0, 3)]) full)).pm = [(0, 2)] ∧
    isNext (execControl (.loadState [(0, 2), (0x100000000, 1)]) full) = false := by decide +kernel

theorem test_witness_ParametersNeverChange :
    step (offered (.rd8 false 0x00006000 6) full) =
      .next (nextState (step (offered (.rd8 false 0x00006000 6) full))) := eq_next (by decide +kernel)

/-- A state with a dirty line, a clean line and a page that is not plain RAM meets the invariant, and its
step goes on. -/
theorem test_witness_StepKeepsInvariant :
    (offered (.rd8 true 0x00005000 5) stranded).Inv ∧
    step (offered (.rd8 true 0x00005000 5) stranded) =
      .next (nextState (step (offered (.rd8 true 0x00005000 5) stranded))) := by
  refine ⟨⟨by decide +kernel, by decide +kernel, by decide +kernel, by decide +kernel, fun i => ?_⟩,
    eq_next (by decide +kernel)⟩
  refine ⟨?_, ?_, ?_, ?_, ?_, ?_, ?_, ?_, ?_, ?_, ?_⟩ <;> revert i <;> decide +kernel

end Sys2Proof.Tests
end

section
/-! PROOF. The fields of an address (`spec/00_scope.md` R11). -/

namespace Sys2Proof.Machine

/-- The three fields of R11 tile the address: each begins where the next lower one ends. -/
theorem fields_append (pa : PA) : pfnOf pa ++ setOf pa ++ offOf pa = pa := by
  have page : pfnOf pa ++ setOf pa = pa.extractLsb' 6 26 :=
    BitVec.extractLsb'_append_extractLsb'_eq_extractLsb' rfl
  have whole : pa.extractLsb' 6 26 ++ offOf pa = pa.extractLsb' 0 32 :=
    BitVec.extractLsb'_append_extractLsb'_eq_extractLsb' rfl
  rw [page, whole, BitVec.extractLsb'_eq_self]

/-- `va[11:0] = pa[11:0]`: translation leaves the offset in the page alone (R11). -/
theorem pageOffset_physAddr (p : Params) (pfn : Pfn) (va : VA) :
    (physAddr p pfn va).extractLsb' 0 12 = va.extractLsb' 0 12 := by
  unfold physAddr
  exact BitVec.extractLsb'_append_eq_right

/-- Settles O9: the fields tile the address, and the page offset, which holds set and offset, is not
translated. -/
theorem addressDecomposition : Obligations.AddressDecomposition :=
  ⟨fun pa => ⟨fields_append pa, lineBase_eq pa⟩,
    fun p pfn va => ⟨pageOffset_physAddr p pfn va, setOf_physAddr p pfn va, offOf_physAddr p pfn va⟩⟩

end Sys2Proof.Machine
end

section
/-! PROOF. How the 64 sets tile physical memory (`spec/20_memory.md` R53). -/

namespace Sys2Proof.Machine

/-- Below the page frame a line's address holds the set and nothing else, so the sets repeat every 4096
bytes. -/
theorem lineBase_toNat_mod_page (pa : PA) : (lineBase pa).toNat % 4096 = (setOf pa).toNat * 64 := by
  have hset := (setOf pa).isLt
  rw [lineBase_eq, lineAddr_toNat]
  omega

/-- Two addresses are in the same set exactly when their lines are equal modulo 4096 (R53). -/
theorem setOf_eq_iff_lineBase_mod_page (a b : PA) :
    setOf a = setOf b ↔ (lineBase a).toNat % 4096 = (lineBase b).toNat % 4096 := by
  rw [lineBase_toNat_mod_page, lineBase_toNat_mod_page, Nat.mul_left_inj (by decide), BitVec.toNat_inj]

/-- Settles O10: modulo 4096 a line's address is its set times 64, and the set lies in the page offset, which
is not translated. -/
theorem setsTilePhysicalMemory : Obligations.SetsTilePhysicalMemory :=
  ⟨setOf_eq_iff_lineBase_mod_page, setOf_physAddr⟩

end Sys2Proof.Machine
end

section
/-! PROOF. The conditions under which the cache activates (`spec/40_filter.md` R100). -/

namespace Sys2Proof.Machine

/-- `CheckCache` as a proposition: its three conditions, each read as the fact it tests (R100). -/
theorem checkCache_iff (s : State) (ctx : Bool) (va : VA) :
    s.checkCache ctx va = true ↔ ctx = false ∧ s.cacheEnable = true ∧ tlbCacheable s.tlb va = true := by
  unfold State.checkCache
  rw [Bool.and_eq_true, Bool.and_eq_true, Bool.not_eq_true', and_assoc]

/-- Settles O15: the three conditions read two fields of the state, so states that agree in `cacheEnable` and
`tlb` answer alike. -/
theorem filterConditions : Obligations.FilterConditions :=
  ⟨checkCache_iff, fun _ _ ctx va henable htlb => State.checkCache_congr henable htlb ctx va⟩

end Sys2Proof.Machine
end

section
/-! PROOF. The decoder and the serial form of a request (`spec/30_encoding.md` sections 2 and 3). -/

namespace Sys2Proof

/-- The request names the operation: the same code, context bit, address and frame, and for a write the same
bits of `wdata` below W (R82, R84, R86). -/
structure Request.Names (r : Request) (i : Instr) : Prop where
  op : r.op = opcodeOf i
  staticCtx : r.staticCtx = i.staticCtx
  va : r.va = i.va
  pfn : r.pfn = i.pfn
  wdata : i.isWrite = true → ∀ k < 8 * i.bytes, r.wdata.getLsbD k = (wdataOf i).getLsbD k

/-- Widening what was cut from the low bits of `wdata` gives those bits back. -/
theorem getLsbD_setWidth_extractLsb' {n k : Nat} (x : BitVec 128) (hn : n ≤ 128) (hk : k < n) :
    ((x.extractLsb' 0 n).setWidth 128).getLsbD k = x.getLsbD k := by
  rw [BitVec.getLsbD_setWidth, BitVec.getLsbD_extractLsb']
  simp [hk, show k < 128 by omega]

/-- A request whose low bits are those of a widened value carries the value. -/
theorem extractLsb'_eq_of_low_bits {n : Nat} {x : BitVec 128} {v : BitVec n} (hn : n ≤ 128)
    (h : ∀ k < n, x.getLsbD k = (v.setWidth 128).getLsbD k) : x.extractLsb' 0 n = v := by
  apply BitVec.eq_of_getLsbD_eq
  intro k hk
  rw [BitVec.getLsbD_extractLsb', Nat.zero_add, h k hk, BitVec.getLsbD_setWidth]
  simp [hk, show k < 128 by omega]

/-- A request decodes to exactly the operation it names. -/
theorem decode_eq_ok_iff (r : Request) (i : Instr) : decode r = .ok i ↔ r.Names i := by
  constructor
  · intro h
    simp only [decode, ite_eq_iff] at h
    rcases h with ⟨h0, h⟩ | ⟨-, ⟨h1, h⟩ | ⟨-, ⟨h2, h⟩ | ⟨-, ⟨h3, h⟩ | ⟨-, ⟨h4, h⟩ | ⟨-, ⟨h5, h⟩ | ⟨-, ⟨h6, h⟩ |
      ⟨-, ⟨h7, h⟩ | ⟨-, ⟨h8, h⟩ | ⟨-, ⟨h9, h⟩ | ⟨-, h⟩⟩⟩⟩⟩⟩⟩⟩⟩⟩ <;> cases h
    · exact ⟨h0, rfl, rfl, rfl, fun hw => by cases hw⟩
    · exact ⟨h1, rfl, rfl, rfl, fun hw => by cases hw⟩
    · exact ⟨h2, rfl, rfl, rfl, fun hw => by cases hw⟩
    · exact ⟨h3, rfl, rfl, rfl, fun hw => by cases hw⟩
    · exact ⟨h4, rfl, rfl, rfl, fun hw => by cases hw⟩
    · exact ⟨h5, rfl, rfl, rfl, fun _ k hk => (getLsbD_setWidth_extractLsb' (n := 8) _ (by decide) hk).symm⟩
    · exact ⟨h6, rfl, rfl, rfl, fun _ k hk => (getLsbD_setWidth_extractLsb' (n := 16) _ (by decide) hk).symm⟩
    · exact ⟨h7, rfl, rfl, rfl, fun _ k hk => (getLsbD_setWidth_extractLsb' (n := 32) _ (by decide) hk).symm⟩
    · exact ⟨h8, rfl, rfl, rfl, fun _ k hk => (getLsbD_setWidth_extractLsb' (n := 64) _ (by decide) hk).symm⟩
    · exact ⟨h9, rfl, rfl, rfl, fun _ _ _ => rfl⟩
  · obtain ⟨_, _, _, _, wdata⟩ := r
    rintro ⟨rfl, rfl, rfl, rfl, hdata⟩
    cases i
    case rd8 | rd16 | rd32 | rd64 | rd128 => rfl
    case wr8 ctx va pfn v =>
      have hv := extractLsb'_eq_of_low_bits (n := 8) (by decide) (hdata rfl)
      exact congrArg (Except.ok ∘ Instr.wr8 ctx va pfn) hv
    case wr16 ctx va pfn v =>
      have hv := extractLsb'_eq_of_low_bits (n := 16) (by decide) (hdata rfl)
      exact congrArg (Except.ok ∘ Instr.wr16 ctx va pfn) hv
    case wr32 ctx va pfn v =>
      have hv := extractLsb'_eq_of_low_bits (n := 32) (by decide) (hdata rfl)
      exact congrArg (Except.ok ∘ Instr.wr32 ctx va pfn) hv
    case wr64 ctx va pfn v =>
      have hv := extractLsb'_eq_of_low_bits (n := 64) (by decide) (hdata rfl)
      exact congrArg (Except.ok ∘ Instr.wr64 ctx va pfn) hv
    case wr128 ctx va pfn v =>
      have hv : wdata = v := BitVec.eq_of_getLsbD_eq (hdata rfl)
      exact congrArg (Except.ok ∘ Instr.wr128 ctx va pfn) hv

/-- The ten codes of R84. -/
def operationCodes : List (BitVec 4) :=
  [0b0000#4, 0b0001#4, 0b0010#4, 0b0011#4, 0b0100#4, 0b1000#4, 0b1001#4, 0b1010#4, 0b1011#4, 0b1100#4]

/-- The decoder rejects a request exactly when its code is none of the ten. -/
theorem decode_eq_error_iff (r : Request) : decode r = .error .reservedOp ↔ r.op ∉ operationCodes := by
  simp only [decode, operationCodes, ite_eq_iff, reduceCtorEq, and_false, false_or, and_true, List.mem_cons,
    List.not_mem_nil, or_false, not_or]

/-- The codes that are none of the ten are those of size 5, 6 and 7, in either direction (R85). -/
theorem not_mem_operationCodes_iff :
    ∀ op : BitVec 4, op ∉ operationCodes ↔ 5 ≤ (op.extractLsb' 0 3).toNat := by
  decide

/-- The request read from the serial word of an operation is the operation's (log 2). -/
theorem ofWord_encodeWord (i : Instr) :
    Request.ofWord (BitVec.ofNat requestBits (encodeWord i).toNat) = encode i := by
  rw [BitVec.ofNat_toNat, BitVec.setWidth_eq]
  exact Request.ofWord_toWord (encode i)

/-- Settles O7: the serial word gives the request back, and the request gives the operation back. -/
theorem decodeInvertsEncodeWord : Obligations.DecodeInvertsEncodeWord := by
  intro i
  unfold decodeTableWord
  rw [if_pos ⟨(encodeWord i).isLt, (encodeWord i).isLt⟩, ofWord_encodeWord, decode_encode]

/-- Settles O4: the decoder rejects what is none of the ten codes, and those are the codes of the three
reserved sizes. -/
theorem reservedCodesExactly : Obligations.ReservedCodesExactly := fun r =>
  (decode_eq_error_iff r).trans (not_mem_operationCodes_iff r.op)

/-- Settles O8: decoding succeeds exactly on the requests that name the operation, and naming it says nothing
of the other bits of `wdata`. -/
theorem decodeUsesOnlyItsOperands : Obligations.DecodeUsesOnlyItsOperands := by
  intro r i h
  obtain ⟨hop, hctx, hva, hpfn, hdata⟩ := (decode_eq_ok_iff r i).1 h
  refine ⟨hop.symm, hctx.symm, hva.symm, hpfn.symm, fun hw k hk => (hdata hw k hk).symm, fun x hx => ?_⟩
  exact (decode_eq_ok_iff _ i).2
    ⟨hop, hctx, hva, hpfn, fun hw k hk => (hx hw k hk).trans (hdata hw k hk)⟩

/-- Settles O6: the words of the operation map, each evaluated by the decoder. -/
theorem tableWordsDecode : Obligations.TableWordsDecode := by
  unfold Obligations.TableWordsDecode
  decide

end Sys2Proof
end

section
/-! PROOF. The step at the oldest input (`spec/44_system.md` section 3). -/

namespace Sys2Proof.Machine

/-! One equation of the step per kind of input (R155). -/

theorem step_idle {s : State} (h : s.inputs = []) : step s = .next s := by
  simp [step, h]

theorem step_request {s : State} {r : Request} {rest : List Input} (h : s.inputs = .request r :: rest) :
    step s = if s.running then serveRequest r (s.setInputs rest) else .fault .afterShutdown := by
  simp [step, h]

theorem step_control {s : State} {c : Control} {rest : List Input} (h : s.inputs = .control c :: rest) :
    step s = execControl c (s.setInputs rest) := by
  simp [step, h]

theorem step_running {s : State} {r : Request} {rest : List Input} (h : s.inputs = .request r :: rest)
    (hrun : s.running = true) : step s = serveRequest r (s.setInputs rest) := by
  rw [step_request h, if_pos hrun]

/-! One equation of serving a request per result of the decoder (R82, R85). -/

theorem serveRequest_ok {r : Request} {i : Instr} (h : decode r = .ok i) (s : State) :
    serveRequest r s = present s (exec i s) := by
  simp [serveRequest, h]

theorem serveRequest_reserved {r : Request} (h : decode r = .error .reservedOp) (s : State) :
    serveRequest r s = .next (s.respond (.refused .reservedOp)) := by
  simp [serveRequest, h, present, Refusal.asResponse]

/-- What a served request leaves is what the operation, or the refusal, leaves: the queue is not touched. -/
theorem serveRequest_sameInputs {r : Request} {s t : State} (h : serveRequest r s = .next t) :
    s.sameInputs t := by
  obtain ⟨i, -, hexec⟩ | ⟨why, rfl⟩ := serveRequest_next h
  · exact exec_sameInputs hexec
  · exact ⟨rfl, rfl, rfl, rfl, rfl, rfl⟩

/-- Settles O1: with the request decoded the step presents the outcome of the operation. -/
theorem stepServesOldestRequest : Obligations.StepServesOldestRequest := by
  intro s r rest i hin hrun hdec
  have hstep : step s = present (s.setInputs rest) (exec i (s.setInputs rest)) := by
    rw [step_running hin hrun, serveRequest_ok hdec]
  refine ⟨fun t ht => ?_, exec_no_fault i _, fun h => ?_, fun h => ?_, fun h => ?_⟩
  · rw [hstep, ht]; rfl
  · rw [hstep, h]; rfl
  · rw [hstep, h]; rfl
  · rw [hstep, h]; rfl

/-- Settles O2: the word placed at the head of the inputs is read back as the operation's request. -/
theorem stepRunsPlacedWord : Obligations.StepRunsPlacedWord := by
  intro s i
  have hin : (s.withFetchWord requestBits (encodeWord i).toNat).inputs = .request (encode i) :: s.inputs := by
    simp only [State.withFetchWord, Nat.mod_eq_of_lt (encodeWord i).isLt, ofWord_encodeWord]
  rw [step_running hin rfl, serveRequest_ok (decode_encode i)]
  rfl

/-- Settles O3: the step takes the oldest input off, and neither an operation nor a control input touches the
rest of the queue. -/
theorem inputsServedInArrivalOrder : Obligations.InputsServedInArrivalOrder := by
  refine ⟨fun s t x rest hin hstep => ?_, fun s c rest => step_control, fun s r rest => step_request,
    fun s => step_idle⟩
  cases x with
  | request r =>
    rw [step_request hin] at hstep
    split at hstep
    · obtain ⟨-, -, -, hinputs, -, -⟩ := serveRequest_sameInputs hstep
      exact hinputs
    · cases hstep
  | control c =>
    rw [step_control hin] at hstep
    exact (execControl_keeps hstep).1

/-- Settles O5: the decoder rejects the code before the operation, and with it the alignment, is looked at. -/
theorem reservedCodesAnswerReservedOp : Obligations.ReservedCodesAnswerReservedOp := by
  intro s r rest hin hrun hcode
  rw [step_running hin hrun, serveRequest_reserved ((reservedCodesExactly r).2 hcode)]

/-- Settles O58: neither a served request nor a control input writes the parameters. -/
theorem parametersNeverChange : Obligations.ParametersNeverChange := by
  intro s t hstep
  obtain ⟨-, rfl⟩ | ⟨r, rest, -, -, hserve⟩ | ⟨c, rest, -, hctl⟩ := step_next_cases hstep
  · rfl
  · obtain ⟨-, -, -, -, -, hparams⟩ := serveRequest_sameInputs hserve
    exact hparams
  · exact (execControl_keeps hctl).2

end Sys2Proof.Machine
end

section
/-! PROOF. The cache path in one form for all ten operations: the line an access is served from, and what the
operation then leaves (`spec/41_lookup_fill.md`). -/

namespace Sys2Proof.Machine

/-- `getLine` gives a way that holds the line of the address (R110). -/
theorem State.getLine_holds {s u : State} {pa : PA} {w : Way} (h : s.getLine pa = .ok (w, u)) :
    (u.tag (setOf pa) w).valid = true ∧ (u.tag (setOf pa) w).pfn = pfnOf pa := by
  obtain ⟨hfind, rfl⟩ | ⟨-, -, rfl, rfl⟩ := State.getLine_cases h
  · exact State.findInCache_some hfind
  · rw [State.tag_afterMiss, if_pos ⟨rfl, rfl⟩]
    exact ⟨rfl, rfl⟩

section Served
variable {s u : State} {i : Instr} {w : Way}

/-- An access that hits is served from the line as it stands. -/
theorem Served.hit (h : Served s i w u) (hhit : s.hits i) :
    u = s ∧ (s.tag (s.setIx i) w).valid = true ∧ (s.tag (s.setIx i) w).pfn = pfnOf (s.pa i) := by
  obtain ⟨hfind, rfl⟩ | ⟨hmiss, -⟩ := State.getLine_cases h.line
  · exact ⟨rfl, State.findInCache_some hfind⟩
  · exact absurd hhit hmiss

/-- An access that misses is served from the victim way, filled. -/
theorem Served.miss (h : Served s i w u) (hmiss : ¬ s.hits i) :
    w = s.victim (s.setIx i) ∧ u = s.afterMiss (s.pa i) := by
  obtain ⟨hfind, -⟩ | ⟨-, -, hw, hu⟩ := State.getLine_cases h.line
  · exact absurd ⟨w, State.findInCache_some hfind⟩ hmiss
  · exact ⟨hw, hu⟩

/-- Every access that hits is served. -/
theorem served_of_hits (hp : s.presentable i) (hc : s.cached i) (hhit : s.hits i) : ∃ w, Served s i w s := by
  obtain ⟨w, hw⟩ := State.findInCache_isSome hhit
  exact ⟨w, hp, hc, State.getLine_hit hw⟩

/-- An access that misses is served unless the write-back of its victim is refused (R123). -/
theorem served_of_misses (hp : s.presentable i) (hc : s.cached i) (hmiss : ¬ s.hits i)
    (hback : ¬ (s.strandedVictim (s.setIx i) ∧ s.params.wbPolicy = .refuse)) :
    Served s i (s.victim (s.setIx i)) (s.afterMiss (s.pa i)) :=
  ⟨hp, hc, State.getLine_miss hmiss fun h => hback ((s.writeBackRefused_iff _).1 h)⟩

end Served

/-- What an operation served from way `w` of state `u` leaves in state `t` (R120, R130, R140): PM and all
other entries and lines as in `u`; a write sets DIRTY and stores its bytes, a read changes neither array. -/
structure CacheAnswer (s : State) (i : Instr) (w : Way) (u t : State) : Prop where
  pm : t.pm = u.pm
  tag : ∀ j v, t.tag j v =
    if i.isWrite = true ∧ s.setIx i = j ∧ w = v then (u.tag j v).written else u.tag j v
  line : ∀ j v, ¬ (s.setIx i = j ∧ w = v) → t.line j v = u.line j v
  stored : i.isWrite = true → ∀ k (hk : k < 64), (t.line (s.setIx i) w)[k] =
    if (offOf (s.pa i)).toNat ≤ k ∧ k < (offOf (s.pa i)).toNat + i.bytes then
      storedByte i (k - (offOf (s.pa i)).toNat)
    else (u.line (s.setIx i) w)[k]
  arrays : i.isWrite = false → t.tags = u.tags ∧ t.data = u.data

/-- A read served from a line leaves the state it was served from, and its response. -/
theorem CacheAnswer.of_read {s u : State} {i : Instr} {w : Way} (hw : i.isWrite = false) (r : Response) :
    CacheAnswer s i w u (u.respond r) where
  pm := rfl
  tag j v := by simp [hw]
  line _ _ _ := rfl
  stored h := by simp [hw] at h
  arrays _ := ⟨rfl, rfl⟩

/-- A write served from a line leaves `lineWrite` of it, and its response. -/
theorem CacheAnswer.of_write {s u : State} {i : Instr} {w : Way} {v : BitVec (8 * i.bytes)}
    (hw : i.isWrite = true) (hv : ∀ k < i.bytes, v.extractLsb' (8 * k) 8 = storedByte i k) (r : Response) :
    CacheAnswer s i w u ((u.lineWrite (s.setIx i) w (offOf (s.pa i)) i.bytes v).respond r) where
  pm := rfl
  tag j x := by
    rw [State.tag_respond, State.tag_lineWrite]
    by_cases h : s.setIx i = j ∧ w = x
    · obtain ⟨rfl, rfl⟩ := h
      simp [hw]
    · rw [if_neg h, if_neg fun h' => h h'.2]
  line j x h := by rw [State.line_respond, State.line_lineWrite, if_neg h]
  stored _ k hk := by
    rw [State.line_respond, State.line_lineWrite, if_pos ⟨rfl, rfl⟩]
    exact getElem_lineStore_stored hv _ _ _ hk
  arrays h := by simp [hw] at h

/-- An operation through the cache that answers was served from a line. -/
theorem exec_cached_cases {i : Instr} {s t : State} (h : exec i s = .next t) (hc : s.cached i) :
    ∃ w u, Served s i w u ∧ CacheAnswer s i w u t := by
  obtain ⟨-, ⟨-, hb, -⟩ | ⟨-, hb, -⟩ | ⟨hw, w, u, hs, r, rfl, -⟩ | ⟨hw, w, u, hs, v, hv, rfl⟩⟩ :=
    exec_next_cases h
  · simp [hc] at hb
  · simp [hc] at hb
  · exact ⟨w, u, hs, .of_read hw r⟩
  · exact ⟨w, u, hs, .of_write hw hv .done⟩

/-- An operation through the cache that hits and answers worked on a way that holds its line. -/
theorem exec_hit_cases {i : Instr} {s t : State} (h : exec i s = .next t) (hc : s.cached i)
    (hhit : s.hits i) :
    ∃ w, (s.tag (s.setIx i) w).valid = true ∧ (s.tag (s.setIx i) w).pfn = pfnOf (s.pa i) ∧
      CacheAnswer s i w s t := by
  obtain ⟨w, u, hs, ha⟩ := exec_cached_cases h hc
  obtain ⟨rfl, hvalid, hpfn⟩ := hs.hit hhit
  exact ⟨w, hvalid, hpfn, ha⟩

/-- An operation through the cache that misses and answers worked on the victim way, filled. -/
theorem exec_miss_cases {i : Instr} {s t : State} (h : exec i s = .next t) (hc : s.cached i)
    (hmiss : ¬ s.hits i) : CacheAnswer s i (s.victim (s.setIx i)) (s.afterMiss (s.pa i)) t := by
  obtain ⟨w, u, hs, ha⟩ := exec_cached_cases h hc
  obtain ⟨rfl, rfl⟩ := hs.miss hmiss
  exact ha

/-- An operation round the cache that answers changes the response, and PM if it is a write (D17). -/
theorem exec_bypass_cases {i : Instr} {s t : State} (h : exec i s = .next t) (hc : ¬ s.cached i) :
    (i.isWrite = false ∧ ∃ r, t = s.respond r) ∨
    (i.isWrite = true ∧ ∃ v : BitVec (8 * i.bytes),
      t = (s.setPm (s.pm.writeBytes (s.pa i).toNat (leBytes i.bytes v))).respond .done) := by
  obtain ⟨-, ⟨hw, -, r, rfl, -⟩ | ⟨hw, -, v, -, rfl⟩ | ⟨-, w, u, hs, -⟩ | ⟨-, w, u, hs, -⟩⟩ :=
    exec_next_cases h
  · exact .inl ⟨hw, r, rfl⟩
  · exact .inr ⟨hw, v, rfl⟩
  · exact absurd hs.cached hc
  · exact absurd hs.cached hc

end Sys2Proof.Machine
end

section
/-! PROOF. The invariant of the machine (`spec/10_state.md` section 7): of two tag entries, of the state under
each update, and of the step. -/

namespace Sys2Proof.Machine

/-! The two entries of a set: a write sets DIRTY of a valid way, a fill replaces the victim. -/

section SetInv
variable {p : Params} {t0 t1 : TagEntry} {ppf : Pfn}

theorem SetInv.empty (p : Params) : SetInv p TagEntry.empty TagEntry.empty := by
  constructor <;> simp [TagEntry.empty]

theorem SetInv.written_way0 (h : SetInv p t0 t1) (hvalid : t0.valid = true) : SetInv p t0.written t1 :=
  { h with dirty0 := fun _ => hvalid }

theorem SetInv.written_way1 (h : SetInv p t0 t1) (hvalid : t1.valid = true) : SetInv p t0 t1.written :=
  { h with dirty1 := fun _ => hvalid }

/-- Way 0 is the victim while the LRF flags agree: an empty set has both 0, and a set with way 0 alone filled
has them different, so that after the fill way 1 is empty only if this was the first fill. -/
theorem SetInv.filled_way0 (h : SetInv p t0 t1) (hlrf : t0.lrf = t1.lrf)
    (hfits : ppf.toNat < 2 ^ (p.paBits - 12)) (hother : ¬ (t1.valid = true ∧ t1.pfn = ppf)) :
    SetInv p (t0.filled ppf) t1 :=
  { h with
    unique := fun ⟨_, hvalid, hpfn⟩ => hother ⟨hvalid, hpfn.symm⟩
    dirty0 := fun hd => by cases hd
    first := fun hv => by cases hv
    second := fun _ hempty => by
      cases hv0 : t0.valid with
      | false =>
        obtain ⟨-, hl0, hl1⟩ := h.first hv0
        exact ⟨by simp [TagEntry.filled, hl0], hl1⟩
      | true =>
        obtain ⟨hl0, hl1⟩ := h.second hv0 hempty
        simp [hl0, hl1] at hlrf
    fits0 := hfits }

/-- Way 1 is the victim while the LRF flags differ, so never in an empty set. -/
theorem SetInv.filled_way1 (h : SetInv p t0 t1) (hlrf : t0.lrf ≠ t1.lrf)
    (hfits : ppf.toNat < 2 ^ (p.paBits - 12)) (hother : ¬ (t0.valid = true ∧ t0.pfn = ppf)) :
    SetInv p t0 (t1.filled ppf) :=
  { h with
    unique := fun ⟨hvalid, _, hpfn⟩ => hother ⟨hvalid, hpfn⟩
    dirty1 := fun hd => by cases hd
    first := fun hempty => by
      obtain ⟨-, hl0, hl1⟩ := h.first hempty
      exact absurd (hl0.trans hl1.symm) hlrf
    second := fun _ hv => by cases hv
    fits1 := hfits }

end SetInv

/-! The state. -/

section Inv
variable {s t : State}

/-- The invariant speaks of the tags, PM, the pages and the parameters alone. -/
theorem State.Inv.congr (h : s.Inv) (htags : t.tags = s.tags) (hpm : t.pm = s.pm)
    (hpages : t.unbacked = s.unbacked) (hparams : t.params = s.params) : t.Inv where
  params := hparams ▸ h.params
  memory := hpm ▸ h.memory
  bounded := by rw [hpm, hparams]; exact h.bounded
  pages := hpages ▸ h.pages
  sets j := by
    unfold State.tag
    rw [htags, hparams]
    exact h.sets j

theorem State.Inv.setPm (h : s.Inv) {m : Memory} (hwf : m.wf) (hbelow : m.below (2 ^ s.params.paBits)) :
    (s.setPm m).Inv where
  params := h.params
  memory := hwf
  bounded := hbelow
  pages := h.pages
  sets := h.sets

theorem State.Inv.tag_fits (h : s.Inv) (j : SetIx) (w : Way) :
    (s.tag j w).pfn.toNat < 2 ^ (s.params.paBits - 12) := by
  obtain rfl | rfl := way_cases w
  · exact (h.sets j).fits0
  · exact (h.sets j).fits1

/-- A write-back stays inside the physical address space, because a tag is `TAG_BITS` wide (R22, R34). -/
theorem State.Inv.pmAfterWriteBack_below (h : s.Inv) (j : SetIx) (w : Way) :
    (s.pmAfterWriteBack j w).below (2 ^ s.params.paBits) := by
  unfold State.pmAfterWriteBack
  split
  · obtain ⟨hmin, -, -⟩ := h.params
    exact Memory.writeLine_below h.bounded _ (lineAddr_bound j (by omega) (h.tag_fits j w))
  · exact h.bounded

/-- A fill keeps the two entries of every set in order (R35, R36). -/
theorem State.Inv.sets_afterMiss (h : s.Inv) {pa : PA} (hmiss : ¬ s.resident (pfnOf pa) (setOf pa))
    (hfits : (pfnOf pa).toNat < 2 ^ (s.params.paBits - 12)) (j : SetIx) :
    SetInv s.params ((s.afterMiss pa).tag j 0) ((s.afterMiss pa).tag j 1) := by
  rw [State.tag_afterMiss, State.tag_afterMiss]
  by_cases hj : setOf pa = j
  · subst hj
    obtain hv | hv := way_cases (s.victim (setOf pa))
    · simpa [hv] using (h.sets _).filled_way0 ((victimOf_eq_zero _ _).1 hv) hfits fun h1 => hmiss ⟨1, h1⟩
    · simpa [hv] using (h.sets _).filled_way1 ((victimOf_eq_one _ _).1 hv) hfits fun h0 => hmiss ⟨0, h0⟩
  · simpa [hj] using h.sets j

theorem State.Inv.afterMiss (h : s.Inv) {pa : PA} (hmiss : ¬ s.resident (pfnOf pa) (setOf pa))
    (hfits : (pfnOf pa).toNat < 2 ^ (s.params.paBits - 12)) : (s.afterMiss pa).Inv where
  params := h.params
  memory := State.pmAfterWriteBack_wf h.memory _ _
  bounded := h.pmAfterWriteBack_below _ _
  pages := h.pages
  sets := h.sets_afterMiss hmiss hfits

theorem State.Inv.lineWrite (h : s.Inv) {j : SetIx} {w : Way} (hvalid : (s.tag j w).valid = true)
    (o : LineOff) (n : Nat) (v : BitVec (8 * n)) : (s.lineWrite j w o n v).Inv where
  params := h.params
  memory := h.memory
  bounded := h.bounded
  pages := h.pages
  sets k := by
    rw [State.tag_lineWrite, State.tag_lineWrite]
    by_cases hk : j = k
    · subst hk
      obtain rfl | rfl := way_cases w
      · simpa using (h.sets j).written_way0 hvalid
      · simpa using (h.sets j).written_way1 hvalid
    · simpa [hk] using h.sets k

theorem State.Inv.getLine (h : s.Inv) {pa : PA} {w : Way} (hg : s.getLine pa = .ok (w, t))
    (hfits : (pfnOf pa).toNat < 2 ^ (s.params.paBits - 12)) : t.Inv := by
  obtain ⟨-, rfl⟩ | ⟨hmiss, -, -, rfl⟩ := State.getLine_cases hg
  · exact h
  · exact h.afterMiss hmiss hfits

theorem State.Inv.resetBlock (h : s.Inv) : s.resetBlock.Inv where
  params := h.params
  memory := h.memory
  bounded := h.bounded
  pages := h.pages
  sets j := by
    rw [State.tag_resetBlock, State.tag_resetBlock]
    exact SetInv.empty s.params

/-- The page frame of an access is `TAG_BITS` wide (R81). -/
theorem State.pfnOf_pa_fits (s : State) (i : Instr) :
    (pfnOf (s.pa i)).toNat < 2 ^ (s.params.paBits - 12) := by
  rw [State.pa, pfnOf_physAddr]
  exact clipPfn_lt _ _

/-- An operation keeps the invariant on each of its four paths (R103). -/
theorem exec_keeps_inv (h : s.Inv) {i : Instr} (hexec : exec i s = .next t) : t.Inv := by
  obtain ⟨hp, ⟨-, -, r, rfl, -⟩ | ⟨-, -, v, -, rfl⟩ | ⟨-, w, u, hs, r, rfl, -⟩ | ⟨-, w, u, hs, v, -, rfl⟩⟩ :=
    exec_next_cases hexec
  · exact h.congr rfl rfl rfl rfl
  · obtain ⟨hmin, -, -⟩ := h.params
    have hbound := access_bound i.pfn i.va i.bytes (by omega : 12 ≤ s.params.paBits) hp.1 (Instr.bytes_dvd i)
    exact (h.setPm (Memory.writeBytes_wf h.memory _ _)
      (Memory.writeBytes_below h.bounded _ (by simpa using hbound))).congr rfl rfl rfl rfl
  · exact (h.getLine hs.line (s.pfnOf_pa_fits i)).congr rfl rfl rfl rfl
  · exact ((h.getLine hs.line (s.pfnOf_pa_fits i)).lineWrite (State.getLine_holds hs.line).1 _ _ v).congr
      rfl rfl rfl rfl

/-- A control input or an action of the environment keeps the invariant (R150 to R154). -/
theorem execControl_keeps_inv (h : s.Inv) {c : Control} (hctl : execControl c s = .next t) : t.Inv := by
  cases c with
  | reset => cases hctl; exact h.resetBlock
  | init => cases hctl; exact h.resetBlock
  | shutdown => cases hctl; exact h.congr rfl rfl rfl rfl
  | setCacheEnable on => cases hctl; exact h.congr rfl rfl rfl rfl
  | setTlb k e => cases hctl; exact h.congr rfl rfl rfl rfl
  | setCacheable ranges => cases hctl; exact h.congr rfl rfl rfl rfl
  | writePm a bytes =>
    simp only [execControl, execWritePm] at hctl
    split at hctl <;> cases hctl
    exact h.setPm (Memory.writeBytes_wf h.memory _ _) (Memory.writeBytes_below h.bounded _ ‹_›)
  | setBacked pfn ram =>
    cases hctl
    refine ⟨h.params, h.memory, h.bounded, ?_, h.sets⟩
    cases ram
    · exact pagesInsert_sorted h.pages _
    · exact pagesErase_sorted h.pages _
  | loadState image =>
    simp only [execControl, execLoadState] at hctl
    split at hctl <;> cases hctl
    have himage := List.all_eq_true.1 ‹image.all _ = true›
    exact h.resetBlock.setPm (Memory.ofImage_wf image)
      (Memory.ofImage_below fun c hc => of_decide_eq_true (himage c hc))

end Inv

/-- Settles O60: an operation, a refusal and a control input each keep the invariant, and taking the input off
the queue does not touch what it speaks of. -/
theorem stepKeepsInvariant : Obligations.StepKeepsInvariant := by
  intro s t h hstep
  obtain ⟨-, rfl⟩ | ⟨r, rest, -, -, hserve⟩ | ⟨c, rest, -, hctl⟩ := step_next_cases hstep
  · exact h
  · have hq : (s.setInputs rest).Inv := h.congr rfl rfl rfl rfl
    obtain ⟨i, -, hexec⟩ | ⟨why, rfl⟩ := serveRequest_next hserve
    · exact exec_keeps_inv hq hexec
    · exact hq.congr rfl rfl rfl rfl
  · have hq : (s.setInputs rest).Inv := h.congr rfl rfl rfl rfl
    exact execControl_keeps_inv hq hctl

/-- Settles O59: at reset PM and the list of pages are empty and every entry is the empty one. -/
theorem resetMeetsInvariant : Obligations.ResetMeetsInvariant where
  params := by decide
  memory := Memory.ofImage_wf []
  bounded := by simp [State.reset]
  pages := .nil
  sets j := by
    rw [State.tag_reset, State.tag_reset]
    exact SetInv.empty _

end Sys2Proof.Machine
end

section
/-! PROOF. Which operations complete and which are refused (`spec/60_exceptions.md` sections 1, 3 and 4). -/

namespace Sys2Proof.Machine

/-- An operation is refused when its READ or WRITE is, and for the same reason. -/
theorem exec_refused {i : Instr} {s : State} {q : Refusal}
    (hread : readRequest i.bytes i.staticCtx i.va i.pfn s = .error q)
    (hwrite : ∀ v, writeRequest i.bytes i.staticCtx i.va i.pfn v s = .error q) :
    exec i s = .refused q := by
  cases hw : i.isWrite with
  | false =>
    obtain ⟨data, -, -, hexec⟩ := exec_read i hw
    rw [hexec, hread, finishRead]
  | true =>
    obtain ⟨v, -, hexec⟩ := exec_write i hw
    rw [hexec, hwrite v, finishWrite]

/-- Settles O38: both procedures test the alignment first. -/
theorem misalignedRefused : Obligations.MisalignedRefused := by
  intro s i h
  rw [Instr.aligned_iff] at h
  exact exec_refused (by simp [readRequest, h]) fun v => by simp [writeRequest, h]

/-- Settles O39: an aligned access meets the page check next, before the filter. -/
theorem pageNotRamStops : Obligations.PageNotRamStops := by
  intro s i ha hpage
  rw [Instr.aligned_iff] at ha
  exact exec_refused (by simp [readRequest, ha, hpage]) fun v => by simp [writeRequest, ha, hpage]

/-- Settles O36: the refused write-back refuses `getLine`, and with it the operation. -/
theorem strandedVictimRefused : Obligations.StrandedVictimRefused := by
  intro s i hp hc hmiss hstranded hpolicy
  have hline := State.getLine_error hmiss ((s.writeBackRefused_iff _).2 ⟨hstranded, hpolicy⟩)
  exact exec_refused (by rw [readRequest_cached hp hc, hline]) fun v => by
    rw [writeRequest_cached hp hc, hline]

/-- An operation served from a line completes. -/
theorem exec_of_served {s u : State} {i : Instr} {w : Way} (h : Served s i w u) : ∃ t, exec i s = .next t := by
  cases hw : i.isWrite with
  | false =>
    obtain ⟨r, hexec, -⟩ := (exec_read_admitted hw h.presentable).2 h.cached w u h.line
    exact ⟨_, hexec⟩
  | true =>
    obtain ⟨v, -, -, hexec⟩ := exec_write_admitted hw h.presentable
    exact ⟨_, hexec h.cached w u h.line⟩

/-- A presented operation completes unless a write-back it needs is refused (R123, R160). -/
theorem exec_completes {s : State} {i : Instr} (hp : s.presentable i)
    (hback : ¬ (s.strandedVictim (s.setIx i) ∧ s.params.wbPolicy = .refuse)) : ∃ t, exec i s = .next t := by
  by_cases hc : s.cached i
  · by_cases hhit : s.hits i
    · obtain ⟨w, hs⟩ := served_of_hits hp hc hhit
      exact exec_of_served hs
    · exact exec_of_served (served_of_misses hp hc hhit hback)
  · cases hw : i.isWrite with
    | false =>
      obtain ⟨r, hexec, -⟩ := (exec_read_admitted hw hp).1 hc
      exact ⟨_, hexec⟩
    | true =>
      obtain ⟨v, -, hexec, -⟩ := exec_write_admitted hw hp
      exact ⟨_, hexec hc⟩

/-- The response of an operation that completes is that of its direction and width (R83). -/
theorem exec_next_response {i : Instr} {s t : State} (h : exec i s = .next t) :
    (i.isWrite = true ∧ t.response = some .done) ∨
    (i.isWrite = false ∧ ∃ r f, t.response = some r ∧ r.dataOf i.bytes f) := by
  obtain ⟨-, ⟨hw, -, r, rfl, hr⟩ | ⟨hw, -, v, -, rfl⟩ | ⟨hw, w, u, -, r, rfl, hr⟩ | ⟨hw, w, u, -, v, -, rfl⟩⟩ :=
    exec_next_cases h
  · exact .inr ⟨hw, r, _, rfl, hr⟩
  · exact .inl ⟨hw, rfl⟩
  · exact .inr ⟨hw, r, _, rfl, hr⟩
  · exact .inl ⟨hw, rfl⟩

/-- An operation that completes never shows a refusal. -/
theorem exec_next_not_refused {i : Instr} {s t : State} (h : exec i s = .next t) (why : RefuseReason) :
    t.response ≠ some (.refused why) := by
  intro hrefused
  obtain ⟨-, hdone⟩ | ⟨-, r, f, hdata, hr⟩ := exec_next_response h
  · rw [hdone] at hrefused
    cases hrefused
  · rw [hdata] at hrefused
    cases hrefused
    exact hr

/-- Settles O25: no victim is stranded where every page is plain RAM, and under `drop` a stranded one does not
refuse. -/
theorem presentedOperationsComplete : Obligations.PresentedOperationsComplete := by
  intro s i hp hsafe
  have hback : ¬ (s.strandedVictim (s.setIx i) ∧ s.params.wbPolicy = .refuse) := by
    rintro ⟨⟨-, -, hpage⟩, hpolicy⟩
    obtain hram | hdrop := hsafe
    · simp [hram] at hpage
    · simp [hdrop] at hpolicy
  obtain ⟨t, hexec⟩ := exec_completes hp hback
  exact ⟨t, hexec, exec_next_response hexec⟩

/-- Settles O26: a reserved code and a misaligned operation are answered, and every other request is presented
with all pages plain RAM, so that it completes. -/
theorem requestsNeverStopOnPlainRam : Obligations.RequestsNeverStopOnPlainRam := by
  intro s r rest hpages hrun hin
  unfold safeStep
  rw [step_running hin hrun]
  have hbacked : ∀ pfn, (s.setInputs rest).backed pfn = true := by simp [State.backed, hpages]
  cases hdec : decode r with
  | error e =>
    cases e
    exact ⟨_, serveRequest_reserved hdec _⟩
  | ok i =>
    rw [serveRequest_ok hdec]
    cases ha : i.aligned with
    | false =>
      rw [misalignedRefused _ i ha]
      exact ⟨_, rfl⟩
    | true =>
      obtain ⟨t, hexec, -⟩ := presentedOperationsComplete (s.setInputs rest) i ⟨ha, hbacked _⟩ (.inl hbacked)
      rw [hexec]
      exact ⟨t, rfl⟩

/-- Settles O40: a completed operation does not show a refusal, so the step showed the refusal and did nothing
else. -/
theorem refusedRequestsChangeNothing : Obligations.RefusedRequestsChangeNothing := by
  intro s t r rest why hin hstep hresp
  rw [step_request hin] at hstep
  split at hstep
  · obtain ⟨i, -, hexec⟩ | ⟨why', rfl⟩ := serveRequest_next hstep
    · exact absurd hresp (exec_next_not_refused hexec why)
    · cases hresp
      rfl
  · cases hstep

end Sys2Proof.Machine
end

section
/-! PROOF. What an operation does on each path: round the cache, on a hit, on a miss (`spec/42_read.md`,
`spec/43_write.md`). -/

namespace Sys2Proof.Machine

/-- Byte `k` of an aligned access in PM is byte `off + k` of its line (R11, R58). -/
theorem State.pa_add (s : State) (i : Instr) (k : Nat) :
    (s.pa i).toNat + k = (lineBase (s.pa i)).toNat + ((offOf (s.pa i)).toNat + k) := by
  rw [toNat_eq_lineBase_add, Nat.add_assoc]

/-- Settles O19: the bypass of READ. -/
theorem bypassReadsReturnMemory : Obligations.BypassReadsReturnMemory := fun _ _ hw hp hc =>
  (exec_read_admitted hw hp).1 hc

/-- Settles O20: the line that answers is the resident one, and a hit leaves the state as it was. -/
theorem readHitsReturnTheLine : Obligations.ReadHitsReturnTheLine := by
  intro s i hw hp hc hhit
  obtain ⟨w, hs⟩ := served_of_hits hp hc hhit
  obtain ⟨-, hvalid, hpfn⟩ := hs.hit hhit
  obtain ⟨r, hexec, hr⟩ := (exec_read_admitted hw hp).2 hc w s hs.line
  exact ⟨r, w, hvalid, hpfn, hexec, hr⟩

/-- Settles O21: the line that answers is the victim way, filled from PM. -/
theorem readMissesFillTheLine : Obligations.ReadMissesFillTheLine := by
  intro s i hw hp hc hmiss hback
  have hs := served_of_misses hp hc hmiss hback
  have hline := State.getElem_line_afterMiss s (s.pa i) hmiss
  obtain ⟨r, hexec, hr⟩ := (exec_read_admitted hw hp).2 hc _ _ hs.line
  refine ⟨_, r, hexec, rfl, Response.dataOf_congr hr fun k hk => ?_, ?_, fun k hk => hline k hk⟩
  · have hoff := State.off_lt (s := s) hp.1 hk
    rw [Vector.getElem?_eq_getElem hoff, Option.getD_some, s.pa_add]
    exact hline _ hoff
  · rw [State.tag_respond, State.tag_afterMiss, if_pos ⟨rfl, rfl⟩]
    rfl

/-- Settles O22: the bypass of WRITE, one row of bytes written to PM. -/
theorem bypassWritesStoreInMemory : Obligations.BypassWritesStoreInMemory := by
  intro s i hw hp hc
  obtain ⟨v, hv, hexec, -⟩ := exec_write_admitted hw hp
  refine ⟨s.pm.writeBytes (s.pa i).toNat (leBytes i.bytes v), hexec hc, fun k hk => ?_, fun b hb => ?_⟩
  · rw [Memory.read_writeBytes_inside _ _ _ _ (by simpa using hk), getElem_leBytes]
    exact hv k hk
  · exact Memory.read_writeBytes_outside _ _ (by simpa using hb)

/-- Settles O23: the resident line takes the bytes and its entry DIRTY. -/
theorem writeHitsChangeTheLine : Obligations.WriteHitsChangeTheLine := by
  intro s i hw hp hc hhit
  obtain ⟨w', hs⟩ := served_of_hits hp hc hhit
  obtain ⟨t, hexec⟩ := exec_of_served hs
  obtain ⟨w, hvalid, hpfn, ha⟩ := exec_hit_cases hexec hc hhit
  have hdone : t.response = some .done := by simpa [hw] using exec_next_response hexec
  refine ⟨t, w, hvalid, hpfn, hexec, hdone, ha.pm, ?_, ha.stored hw⟩
  rw [ha.tag, if_pos ⟨hw, rfl, rfl⟩]
  rfl

/-- Settles O24: the victim way is filled as by a read, then written as on a hit. -/
theorem writeMissesAllocate : Obligations.WriteMissesAllocate := by
  intro s i hw hp hc hmiss hback
  obtain ⟨t, hexec⟩ := exec_completes hp hback
  have ha := exec_miss_cases hexec hc hmiss
  have hdone : t.response = some .done := by simpa [hw] using exec_next_response hexec
  refine ⟨t, hexec, hdone, ?_, fun k hk => ?_⟩
  · rw [ha.tag, if_pos ⟨hw, rfl, rfl⟩, State.tag_afterMiss, if_pos ⟨rfl, rfl⟩]
    rfl
  · rw [ha.stored hw k hk, State.getElem_line_afterMiss s (s.pa i) hmiss k hk]

/-- A value widened to the port shows its bytes. -/
theorem extractLsb'_setWidth_port {m : Nat} (v : BitVec m) {k : Nat} (hm : m ≤ 128) (hk : 8 * k + 8 ≤ m) :
    (v.setWidth 128).extractLsb' (8 * k) 8 = v.extractLsb' (8 * k) 8 := by
  apply BitVec.eq_of_getLsbD_eq
  intro b hb
  rw [BitVec.getLsbD_extractLsb', BitVec.getLsbD_extractLsb', BitVec.getLsbD_setWidth]
  simp [show 8 * k + b < 128 by omega]

/-- A value widened to the port shows 0 above its width. -/
theorem getLsbD_setWidth_port_above {m : Nat} (v : BitVec m) {b : Nat} (hb : m ≤ b) :
    (v.setWidth 128).getLsbD b = false := by
  rw [BitVec.getLsbD_setWidth, BitVec.getLsbD_of_ge v b hb, Bool.and_false]

/-- Settles O27: a response of data widens its value to the port. -/
theorem readPortUpperBitsZero : Obligations.ReadPortUpperBitsZero := by
  intro r n f hr
  cases r <;> simp only [Response.dataOf] at hr
  case data128 v =>
    obtain ⟨rfl, hv⟩ := hr
    exact ⟨v, rfl, hv, fun b hb => BitVec.getLsbD_of_ge v b hb⟩
  all_goals
    obtain ⟨rfl, hv⟩ := hr
    exact ⟨_, rfl, fun k hk => (extractLsb'_setWidth_port _ (by omega) (by omega)).trans (hv k hk),
      fun b hb => getLsbD_setWidth_port_above _ hb⟩

end Sys2Proof.Machine
end

section
/-! PROOF. The frames of the ten operations (`spec/10_state.md` sections 3 and 5, `spec/41_lookup_fill.md`
sections 3 and 4). -/

namespace Sys2Proof.Machine

variable {s t : State} {i : Instr}

/-! PM. -/

theorem exec_hit_pm (h : exec i s = .next t) (hc : s.cached i) (hhit : s.hits i) : t.pm = s.pm := by
  obtain ⟨w, -, -, ha⟩ := exec_hit_cases h hc hhit
  exact ha.pm

theorem exec_miss_pm (h : exec i s = .next t) (hc : s.cached i) (hmiss : ¬ s.hits i) :
    t.pm = s.pmAfterWriteBack (s.setIx i) (s.victim (s.setIx i)) :=
  (exec_miss_cases h hc hmiss).pm

theorem exec_miss_pm_of_writesBack (h : exec i s = .next t) (hc : s.cached i) (hmiss : ¬ s.hits i)
    (hback : s.writesBack (s.setIx i)) :
    t.pm = s.pm.writeLine (s.victimLine (s.setIx i)) (s.line (s.setIx i) (s.victim (s.setIx i))) :=
  (exec_miss_pm h hc hmiss).trans ((s.pmAfterWriteBack_victim _).2 hback)

theorem exec_miss_pm_of_not_writesBack (h : exec i s = .next t) (hc : s.cached i) (hmiss : ¬ s.hits i)
    (hback : ¬ s.writesBack (s.setIx i)) : t.pm = s.pm :=
  (exec_miss_pm h hc hmiss).trans ((s.pmAfterWriteBack_victim _).1 hback)

/-! The two arrays. -/

theorem exec_bypass_arrays (h : exec i s = .next t) (hc : ¬ s.cached i) :
    t.tags = s.tags ∧ t.data = s.data := by
  obtain ⟨-, r, rfl⟩ | ⟨-, v, rfl⟩ := exec_bypass_cases h hc
  · exact ⟨rfl, rfl⟩
  · exact ⟨rfl, rfl⟩

/-- Equal arrays hold equal entries and lines. -/
theorem tag_line_of_arrays (h : t.tags = s.tags ∧ t.data = s.data) (j : SetIx) (v : Way) :
    t.tag j v = s.tag j v ∧ t.line j v = s.line j v := by
  simp [State.tag, State.line, h]

/-- Away from the way that served the access, entries and lines are those of the state it was served from. -/
theorem CacheAnswer.other {u : State} {w : Way} (ha : CacheAnswer s i w u t) {j : SetIx} {v : Way}
    (h : ¬ (s.setIx i = j ∧ w = v)) : t.tag j v = u.tag j v ∧ t.line j v = u.line j v :=
  ⟨by rw [ha.tag, if_neg fun h' => h h'.2], ha.line j v h⟩

/-- A miss leaves every way but the victim's as it was. -/
theorem exec_miss_other (h : exec i s = .next t) (hc : s.cached i) (hmiss : ¬ s.hits i) {j : SetIx} {v : Way}
    (hv : ¬ (s.setIx i = j ∧ s.victim (s.setIx i) = v)) :
    t.tag j v = s.tag j v ∧ t.line j v = s.line j v := by
  obtain ⟨htag, hline⟩ := (exec_miss_cases h hc hmiss).other hv
  rw [State.tag_afterMiss, if_neg hv] at htag
  rw [State.line_afterMiss, if_neg hv] at hline
  exact ⟨htag, hline⟩

/-- A miss leaves the victim way filled, DIRTY exactly after a write (R118, R120). -/
theorem exec_miss_victim_tag (h : exec i s = .next t) (hc : s.cached i) (hmiss : ¬ s.hits i) :
    t.tag (s.setIx i) (s.victim (s.setIx i)) =
      { s.victimTag (s.setIx i) with
        pfn := pfnOf (s.pa i), valid := true, dirty := i.isWrite, lrf := !(s.victimTag (s.setIx i)).lrf } := by
  rw [(exec_miss_cases h hc hmiss).tag, State.tag_afterMiss, if_pos (⟨rfl, rfl⟩ : setOf (s.pa i) = s.setIx i ∧ _)]
  cases hw : i.isWrite with
  | false => rw [if_neg fun h' => Bool.noConfusion h'.1]; rfl
  | true => rw [if_pos ⟨rfl, rfl, rfl⟩]; rfl

/-- No other set changes, on any path (R53). -/
theorem exec_other_set (h : exec i s = .next t) {j : SetIx} (hj : j ≠ s.setIx i) (v : Way) :
    t.tag j v = s.tag j v ∧ t.line j v = s.line j v := by
  by_cases hc : s.cached i
  · by_cases hhit : s.hits i
    · obtain ⟨w, -, -, ha⟩ := exec_hit_cases h hc hhit
      exact ha.other fun h' => hj h'.1.symm
    · exact exec_miss_other h hc hhit fun h' => hj h'.1.symm
  · exact tag_line_of_arrays (exec_bypass_arrays h hc) j v

/-- Settles O28: none of the four paths writes a field that is not the block's or PM. -/
theorem operationsLeaveInputsAlone : Obligations.OperationsLeaveInputsAlone := fun _ _ _ h =>
  exec_sameInputs h

/-- Settles O29: the arrays round the cache, in the other sets, on a hit and on a miss. -/
theorem frameOfTheArrays : Obligations.FrameOfTheArrays := by
  intro s t i h
  refine ⟨exec_bypass_arrays h, fun j v hj => exec_other_set h hj v, fun hhit hw => ?_, fun hhit v hv => ?_,
    fun hmiss v hv => ?_⟩
  · by_cases hc : s.cached i
    · obtain ⟨w, -, -, ha⟩ := exec_hit_cases h hc hhit
      exact ha.arrays hw
    · exact exec_bypass_arrays h hc
  · by_cases hc : s.cached i
    · obtain ⟨w, hvalid, hpfn, ha⟩ := exec_hit_cases h hc hhit
      exact ha.other fun h' => hv (h'.2 ▸ ⟨hvalid, hpfn⟩)
    · exact tag_line_of_arrays (exec_bypass_arrays h hc) _ v
  · by_cases hc : s.cached i
    · exact exec_miss_other h hc hmiss fun h' => hv h'.2.symm
    · exact tag_line_of_arrays (exec_bypass_arrays h hc) _ v

/-- Settles O30: PM on each path. -/
theorem frameOfMemory : Obligations.FrameOfMemory := by
  intro s t i h
  refine ⟨fun hc hw => ?_, fun hc hw => ?_, exec_hit_pm h, exec_miss_pm_of_not_writesBack h,
    fun hc hmiss hback b hb => ?_⟩
  · obtain ⟨-, r, rfl⟩ | ⟨hw', -⟩ := exec_bypass_cases h hc
    · rfl
    · simp [hw] at hw'
  · obtain ⟨hw', -⟩ | ⟨-, v, rfl⟩ := exec_bypass_cases h hc
    · simp [hw] at hw'
    · exact fun b hb => Memory.read_writeBytes_outside _ _ (by rwa [length_leBytes])
  · rw [exec_miss_pm_of_writesBack h hc hmiss hback]
    exact Memory.read_writeLine_outside _ _ hb

/-- One entry after an operation: as it was, DIRTY by a write through the cache in its set, or the victim of a
miss, filled. -/
theorem exec_tag_cases (h : exec i s = .next t) (j : SetIx) (v : Way) :
    t.tag j v = s.tag j v ∨
    (t.tag j v = (s.tag j v).written ∧ s.cached i ∧ i.isWrite = true ∧ j = s.setIx i) ∨
    (t.tag j v = { s.tag j v with
        pfn := pfnOf (s.pa i), valid := true, dirty := i.isWrite, lrf := !(s.tag j v).lrf } ∧
      s.cached i ∧ ¬ s.hits i ∧ j = s.setIx i ∧ v = s.victim (s.setIx i)) := by
  by_cases hc : s.cached i
  · by_cases hhit : s.hits i
    · obtain ⟨w, -, -, ha⟩ := exec_hit_cases h hc hhit
      rw [ha.tag]
      split
      · rename_i hwr
        exact .inr (.inl ⟨rfl, hc, hwr.1, hwr.2.1.symm⟩)
      · exact .inl rfl
    · by_cases hv : s.setIx i = j ∧ s.victim (s.setIx i) = v
      · obtain ⟨rfl, rfl⟩ := hv
        exact .inr (.inr ⟨exec_miss_victim_tag h hc hhit, hc, hhit, rfl, rfl⟩)
      · exact .inl (exec_miss_other h hc hhit hv).1
  · exact .inl (tag_line_of_arrays (exec_bypass_arrays h hc) j v).1

/-- Settles O31: a write through the cache sets DIRTY alone, and only a fill touches the other flags. -/
theorem flagsChangeOnlyByFillAndWrite : Obligations.FlagsChangeOnlyByFillAndWrite := by
  intro s t i j v h
  obtain htag | ⟨htag, hc, hw, hj⟩ | ⟨htag, hc, hmiss, hj, hv⟩ := exec_tag_cases h j v
  · rw [htag]
    exact ⟨rfl, rfl, id, fun hchange => by simp at hchange, fun h0 h1 => by simp [h0] at h1⟩
  · rw [htag]
    exact ⟨rfl, rfl, id, fun hchange => by simp [TagEntry.written] at hchange, fun _ _ => ⟨hc, hw, hj⟩⟩
  · rw [htag]
    exact ⟨rfl, rfl, fun _ => rfl, fun _ => ⟨hc, hmiss, hj, hv⟩, fun _ hw => ⟨hc, hw, hj⟩⟩

end Sys2Proof.Machine
end

section
/-! PROOF. Victim selection and write-back (`spec/41_lookup_fill.md` sections 3, 5 and 6). -/

namespace Sys2Proof.Machine

/-- The victim is the way with the number `LRF0 xor LRF1` (R113). -/
theorem State.eq_victim_iff (s : State) (set : SetIx) (w : Way) :
    w = s.victim set ↔ (w = 1 ↔ (s.tag set 0).lrf ≠ (s.tag set 1).lrf) := by
  rw [← victimOf_eq_one, State.victim]
  obtain rfl | rfl := way_cases w <;> obtain hv | hv := way_cases (victimOf (s.tag set 0).lrf (s.tag set 1).lrf) <;>
    simp [hv]

/-- Settles O32: the way with that number is the victim. -/
theorem victimIsXorOfLrf : Obligations.VictimIsXorOfLrf := by
  intro s t i w hc hmiss h hw
  obtain rfl := (s.eq_victim_iff _ w).2 hw
  have hother : s.victim (s.setIx i) ≠ 1 - s.victim (s.setIx i) := otherWay_ne' _
  obtain ⟨htag, hline⟩ := exec_miss_other h hc hmiss (j := s.setIx i) fun h' => hother h'.2
  rw [exec_miss_victim_tag h hc hmiss]
  exact ⟨rfl, rfl, rfl, htag, hline⟩

/-- Settles O33: of the two LRF flags the fill flips one, and a write flips none. -/
theorem fillsAlternate : Obligations.FillsAlternate := by
  intro s t i hc hmiss h
  have hlrf : ∀ v, (t.tag (s.setIx i) v).lrf = ((s.afterMiss (s.pa i)).tag (s.setIx i) v).lrf := fun v => by
    rw [(exec_miss_cases h hc hmiss).tag]
    split <;> rfl
  calc t.victim (s.setIx i)
      = (s.afterMiss (s.pa i)).victim (s.setIx i) := by rw [State.victim, State.victim, hlrf, hlrf]
    _ = 1 - s.victim (s.setIx i) := s.victim_afterMiss (s.pa i)

/-- Settles O34: the write-back is one `writeLine`. -/
theorem missWritesBackTheWholeLine : Obligations.MissWritesBackTheWholeLine := by
  intro s t i hc hmiss hback h k hk
  rw [exec_miss_pm_of_writesBack h hc hmiss hback]
  exact Memory.read_writeLine_inside _ _ _ _ hk

/-- Settles O35: a hit writes nothing, a miss writes back a dirty and valid victim or nothing. -/
theorem memoryUpdatedOnlyAtEviction : Obligations.MemoryUpdatedOnlyAtEviction := by
  intro s t i hc h
  refine ⟨exec_hit_pm h hc, fun hmiss hclean => ?_, fun hmiss hdirty hvalid hpage b => ?_⟩
  · exact exec_miss_pm_of_not_writesBack h hc hmiss fun hback => hclean ⟨hback.1, hback.2.1⟩
  · rw [exec_miss_pm_of_writesBack h hc hmiss ⟨hdirty, hvalid, hpage⟩]
    split
    · rename_i hin
      have hk : b - s.victimLine (s.setIx i) < 64 := by omega
      have hb : b = s.victimLine (s.setIx i) + (b - s.victimLine (s.setIx i)) := by omega
      rw [Vector.getElem?_eq_getElem hk, Option.getD_some]
      exact (congrArg _ hb).trans (Memory.read_writeLine_inside _ _ _ _ hk)
    · exact Memory.read_writeLine_outside _ _ (by omega)

/-- Settles O37: under `drop` the stranded victim does not refuse the fill, and nothing is written back. -/
theorem strandedVictimDropped : Obligations.StrandedVictimDropped := by
  intro s i hp hc hmiss hstranded hpolicy
  obtain ⟨t, h⟩ := exec_completes hp fun hrefuse => by simp [hpolicy] at hrefuse
  obtain ⟨-, -, hpage⟩ := hstranded
  refine ⟨t, h, exec_miss_pm_of_not_writesBack h hc hmiss fun hback => ?_, ?_⟩
  · simp [hback.2.2] at hpage
  · rw [exec_miss_victim_tag h hc hmiss]
    exact ⟨rfl, rfl⟩

end Sys2Proof.Machine
end

section
/-! PROOF. The TLB scan and the directives that set the filter's inputs (`spec/40_filter.md` section 1,
`spec/30_encoding.md` section 5). -/

namespace Sys2Proof.Machine

/-- Settles O16: the scan's list holds the 48 entries. -/
theorem tlbScanIsExistential : Obligations.TlbScanIsExistential := by
  intro tlb va
  rw [tlbCacheable_iff]
  constructor
  · rintro ⟨e, he, hcovers⟩
    obtain ⟨k, hk, rfl⟩ := Vector.mem_iff_getElem.1 (Vector.mem_toList_iff.1 he)
    exact ⟨⟨k, hk⟩, hcovers⟩
  · rintro ⟨k, hcovers⟩
    exact ⟨_, Vector.mem_toList_iff.2 (Vector.getElem_mem k.isLt), hcovers⟩

/-- An entry of the TLB that `CACHEABLE` leaves: entry 0 holds the ranges, the others nothing. -/
theorem getElem_cacheableTlb (ranges : List VaRange) (k : Fin 48) :
    (cacheableTlb ranges)[k.val] = if 0 = k.val then { ranges := ranges, cacheable := true } else TlbEntry.none := by
  simp [cacheableTlb, Vector.getElem_set]

/-- Settles O17: of the entries that `CACHEABLE` leaves only entry 0 covers an address, and it covers the
ranges. -/
theorem cacheableDirectiveIsExact : Obligations.CacheableDirectiveIsExact := by
  intro s ranges
  refine ⟨cacheableTlb ranges, rfl, fun va => ?_⟩
  rw [tlbScanIsExistential]
  constructor
  · rintro ⟨k, hcovers, hmark⟩
    rw [getElem_cacheableTlb] at hcovers hmark
    split at hcovers
    · exact (TlbEntry.covers_iff _ va).1 hcovers
    · simp [TlbEntry.covers, TlbEntry.none] at hcovers
  · intro hrange
    exact ⟨0, (TlbEntry.covers_iff _ va).2 hrange, rfl⟩

/-- Settles O18: the filter is a conjunction of the bit, the context and the scan. -/
theorem enableWritesCacheEnable : Obligations.EnableWritesCacheEnable := by
  refine fun s on => ⟨rfl, fun ctx va => ?_⟩
  rw [State.checkCache, Bool.and_comm (!ctx) on]

/-- Settles O55: one entry of the TLB is set. -/
theorem tlbEntryChangeIsLocal : Obligations.TlbEntryChangeIsLocal := by
  refine fun s k e => ⟨s.tlb.set k.val e, rfl, fun j => ?_⟩
  rw [Vector.getElem_set]
  simp [Fin.ext_iff, eq_comm]

/-- Which pages are plain RAM after one becomes it or ceases to be it (R123). -/
theorem State.backed_setBacked (s : State) (k q : Pfn) (ram : Bool) :
    { s with unbacked := if ram then pagesErase s.unbacked k.toNat else pagesInsert s.unbacked k.toNat }.backed q =
      if q = k then ram else s.backed q := by
  rw [Bool.eq_iff_iff, State.backed]
  cases ram with
  | true =>
    by_cases hq : q = k <;> simp [State.backed, mem_pagesErase, hq, BitVec.toNat_inj]
  | false =>
    by_cases hq : q = k <;> simp [State.backed, mem_pagesInsert, hq, BitVec.toNat_inj]

/-- Settles O56: the list of pages changes at the frame the port presents, which is the named one where it
fits. -/
theorem backedChangeIsLocal : Obligations.BackedChangeIsLocal := by
  refine fun s pfn ram => ⟨_, rfl, fun hfits q => ?_, fun q => s.backed_setBacked _ q ram⟩
  rw [s.backed_setBacked, clipPfn_eq _ _ hfits]

end Sys2Proof.Machine
end

section
/-! PROOF. RESET, Init and Shutdown, and what other agents do to PM (`spec/44_system.md` sections 1 and 2,
`spec/10_state.md` sections 6 and 9). -/

namespace Sys2Proof.Machine

/-- Settles O49: RESET is `resetBlock`, which leaves empty entries, and so is Init. -/
theorem resetEmptiesTheArrays : Obligations.ResetEmptiesTheArrays := by
  refine ⟨fun s rest hin => ⟨_, step_control hin, rfl, rfl, rfl, rfl, rfl, rfl, rfl, rfl, fun j v => ?_⟩,
    fun s => rfl⟩
  rw [State.tag_resetBlock]
  exact ⟨rfl, rfl, rfl, rfl, rfl, rfl⟩

/-- After RESET no line is resident. -/
theorem State.not_resident_resetBlock (s : State) (pfn : Pfn) (set : SetIx) :
    ¬ s.resetBlock.resident pfn set := by
  rintro ⟨w, hvalid, -⟩
  rw [State.tag_resetBlock] at hvalid
  cases hvalid

/-- Settles O50: with no line resident a read misses, and its empty victim is not written back. -/
theorem afterResetReadsReturnMemory : Obligations.AfterResetReadsReturnMemory := by
  intro s t i hreset
  cases hreset
  have hmiss := s.not_resident_resetBlock
  refine ⟨hmiss _ _, fun hw hp hc => ?_⟩
  have hempty : ¬ s.resetBlock.strandedVictim (s.resetBlock.setIx i) := by
    rintro ⟨-, hvalid, -⟩
    rw [State.victimTag, State.tag_resetBlock] at hvalid
    cases hvalid
  obtain ⟨u, r, hexec, hresp, hr, -⟩ :=
    readMissesFillTheLine s.resetBlock i hw hp hc (hmiss _ _) fun h => hempty h.1
  exact ⟨u, r, hexec, hresp, hr⟩

/-- Settles O51: each field of the state after reset. -/
theorem stateAtReset : Obligations.StateAtReset := by
  refine ⟨State.tag_reset, fun j v k hk => ?_, fun a => rfl, rfl, fun va => ?_, fun q => rfl, rfl, rfl, rfl, rfl,
    rfl⟩
  · simp [State.line, State.reset]
  · simp [tlbCacheable, State.reset, TlbEntry.none]

/-- Settles O52: a block that is not running faults on a request, and Init brings up an empty one. -/
theorem shutdownEndsTheBlock : Obligations.ShutdownEndsTheBlock := by
  refine fun s => ⟨_, rfl, rfl, fun r rest hin => ?_, _, rfl, rfl, rfl, rfl, fun j v => ?_⟩
  · rw [step_request hin]
    rfl
  · rw [State.tag_resetBlock]
    rfl

/-- Settles O53: each action writes the one field it is about. -/
theorem environmentLeavesArraysAlone : Obligations.EnvironmentLeavesArraysAlone := by
  intro s t c hreset hinit hload h
  cases c with
  | reset => exact absurd rfl hreset
  | init => exact absurd rfl hinit
  | loadState image => exact absurd rfl (hload image)
  | writePm a bytes =>
    simp only [execControl, execWritePm] at h
    split at h <;> cases h
    simp
  | shutdown => cases h; simp
  | setCacheEnable on => cases h; simp
  | setTlb k e => cases h; simp
  | setCacheable ranges => cases h; simp
  | setBacked pfn ram => cases h; simp

/-- Settles O54: inside the address space one row of bytes is written, beyond it nothing. -/
theorem agentWritesReachMemoryOnly : Obligations.AgentWritesReachMemoryOnly := by
  refine fun s a bytes => ⟨fun hfits => ?_, fun hbeyond => ?_⟩
  · exact ⟨s.pm.writeBytes a.toNat bytes, if_pos hfits, fun k hk => Memory.read_writeBytes_inside _ _ _ _ hk,
      fun b hb => Memory.read_writeBytes_outside _ _ hb⟩
  · exact if_neg (by omega)

/-- An image's entry behind others reads back where none of those has its address (log 22). -/
theorem Memory.read_ofImage_first (before behind : List Host.Cell) (c : Host.Cell)
    (h : ∀ d ∈ before, d.1 ≠ c.1) : (Memory.ofImage (before ++ c :: behind)).read c.1 = c.2 := by
  induction before with
  | nil => exact Memory.read_write_same _ _ _
  | cons d ds ih =>
    have hd : c.1 ≠ d.1 := (h d List.mem_cons_self).symm
    exact (Memory.read_write_other _ _ hd).trans (ih fun e he => h e (List.mem_cons_of_mem _ he))

/-- An address no entry of an image has reads as an unwritten byte (log 5). -/
theorem Memory.read_ofImage_unlisted (image : List Host.Cell) (a : Nat) (h : ∀ c ∈ image, c.1 ≠ a) :
    (Memory.ofImage image).read a = unlistedByte := by
  induction image with
  | nil => rfl
  | cons c cs ih =>
    have hc : a ≠ c.1 := (h c List.mem_cons_self).symm
    exact (Memory.read_write_other _ _ hc).trans (ih fun d hd => h d (List.mem_cons_of_mem _ hd))

/-- Settles O57: a load whose image fits is RESET and the image put in PM. -/
theorem saveStateLoadReplacesMemory : Obligations.SaveStateLoadReplacesMemory := by
  refine fun s image => ⟨fun hfits => ?_, fun c hc hbeyond => ?_⟩
  · have hall : image.all (fun c => c.1 < 2 ^ s.params.paBits) = true :=
      List.all_eq_true.2 fun c hc => decide_eq_true (hfits c hc)
    refine ⟨_, if_pos hall, s.tag_resetBlock, ?_, Memory.read_ofImage_unlisted image, rfl, rfl, rfl, rfl, rfl,
      rfl, rfl⟩
    rintro before c behind rfl hfirst
    exact Memory.read_ofImage_first before behind c hfirst
  · have hall : ¬ image.all (fun c => c.1 < 2 ^ s.params.paBits) = true := fun h => by
      have := of_decide_eq_true (List.all_eq_true.1 h c hc)
      omega
    exact if_neg hall

end Sys2Proof.Machine
end

section
/-! PROOF. An aligned access lies in one line of the physical address space (`spec/20_memory.md` R51, R58). -/

namespace Sys2Proof.Machine

/-- Settles O11: translation presents the frame the port's wires carry, and the line of an aligned access lies
where its frame fits. -/
theorem alignedAccessStaysInLine : Obligations.AlignedAccessStaysInLine := by
  refine ⟨fun p pfn va _ hfits => ?_, fun p pfn va _ => ?_, fun s i ⟨hmin, _, _⟩ ha => ?_⟩
  · rw [pfnOf_physAddr, physAddr, clipPfn_eq p pfn hfits]
    exact ⟨rfl, rfl⟩
  · rw [pfnOf_physAddr, clipPfn_toNat]
  · refine ⟨off_add_le _ _ _ _ ha (Instr.bytes_dvd i), toNat_eq_lineBase_add _, ?_⟩
    rw [lineBase_eq]
    exact lineAddr_bound _ (by omega) (s.pfnOf_pa_fits i)

end Sys2Proof.Machine
end

section
/-! PROOF. The packed tag word (`spec/30_encoding.md` section 4). -/

namespace Sys2Proof.Machine

/-- The four named positions (R88). -/
def namedPositions (p : Params) : List Nat := [p.posDirty.val, p.posValid.val, p.posLrf.val, p.posLock.val]

/-- The spare positions are those of the six that carry no name. -/
theorem sparePositions_eq_filter (p : Params) :
    sparePositions p = (List.range 6).filter fun i => !decide (i ∈ namedPositions p) := by
  refine List.filter_congr fun i _ => ?_
  rw [Bool.eq_iff_iff]
  simp [namedPositions, and_assoc]

/-- Four distinct positions of six leave two (R88). -/
theorem length_sparePositions {p : Params} (h : p.wf) : (sparePositions p).length = 2 := by
  have hnodup : (namedPositions p).Nodup := h.2.2.map Fin.val_injective
  have hlt : ∀ k ∈ namedPositions p, k < 6 := by simp [namedPositions]
  have hnamed : ((List.range 6).filter fun i => decide (i ∈ namedPositions p)).length = 4 :=
    ((List.perm_ext_iff_of_nodup (List.nodup_range.filter _) hnodup).2 fun k => by
      simpa using hlt k).length_eq
  have hsplit := List.length_eq_length_filter_add (l := List.range 6) fun i => decide (i ∈ namedPositions p)
  rw [sparePositions_eq_filter]
  rw [hnamed, List.length_range] at hsplit
  omega

/-- The positions of the two reserved bits: rising, below 6, and none of the named ones (R88). -/
theorem posRsv_spec {p : Params} (h : p.wf) :
    posRsv p 0 < posRsv p 1 ∧ posRsv p 1 < 6 ∧ posRsv p 0 ∉ namedPositions p ∧
      posRsv p 1 ∉ namedPositions p := by
  obtain ⟨x, y, hxy⟩ := List.length_eq_two.1 (length_sparePositions h)
  have hsorted : (sparePositions p).Pairwise (· < ·) := List.pairwise_lt_range.filter _
  have hmem : ∀ k ∈ sparePositions p, k < 6 ∧ k ∉ namedPositions p := by
    simp [sparePositions_eq_filter]
  have h0 : posRsv p 0 = x := by simp [posRsv, hxy]
  have h1 : posRsv p 1 = y := by simp [posRsv, hxy]
  rw [hxy] at hsorted hmem
  obtain ⟨-, hx⟩ := hmem x (by simp)
  obtain ⟨hy6, hy⟩ := hmem y (by simp)
  rw [h0, h1]
  exact ⟨by simpa using hsorted, hy6, hx, hy⟩

/-- A bit of the packed word below 6: of the six flags, the one at its position (R88). -/
theorem tagWord_flagBit (p : Params) (e : TagEntry) {i : Nat} (hi : i < 6) :
    (tagWord p e).getLsbD i =
      (decide (i = p.posDirty.val) && e.dirty || decide (i = p.posValid.val) && e.valid ||
        decide (i = p.posLrf.val) && e.lrf || decide (i = p.posLock.val) && e.lock ||
        decide (i = posRsv p 0) && e.rsv.getLsbD 0 || decide (i = posRsv p 1) && e.rsv.getLsbD 1) := by
  rw [tagWord_bit, if_pos hi]
  simp only [flagField, BitVec.getLsbD_or, flagAt_bit, hi, decide_true, Bool.true_and]

/-- The page frame is the packed word's bits from 12 up (R88). -/
theorem tagWord_pfn (p : Params) (e : TagEntry) : (tagWord p e).extractLsb' 12 20 = e.pfn := by
  apply BitVec.eq_of_getLsbD_eq
  intro i hi
  rw [BitVec.getLsbD_extractLsb', tagWord_bit, if_neg (by omega), if_neg (by omega), Nat.add_sub_cancel_left]
  simp [hi]

/-- A value of two bits is its two bits. -/
theorem ofBool_append_ofBool (v : BitVec 2) :
    BitVec.ofBool (v.getLsbD 1) ++ BitVec.ofBool (v.getLsbD 0) = v := by
  revert v; decide

/-- The six flags stand at six different positions, so that each reads back alone. -/
theorem tagWord_flags {p : Params} (h : p.wf) (e : TagEntry) :
    (tagWord p e).getLsbD p.posDirty = e.dirty ∧ (tagWord p e).getLsbD p.posValid = e.valid ∧
    (tagWord p e).getLsbD p.posLrf = e.lrf ∧ (tagWord p e).getLsbD p.posLock = e.lock ∧
    (tagWord p e).getLsbD (posRsv p 0) = e.rsv.getLsbD 0 ∧
    (tagWord p e).getLsbD (posRsv p 1) = e.rsv.getLsbD 1 := by
  obtain ⟨h01, h1, hr0, hr1⟩ := posRsv_spec h
  have hnamed : (namedPositions p).Nodup := h.2.2.map Fin.val_injective
  simp only [namedPositions, List.nodup_cons, List.mem_cons, List.not_mem_nil, or_false, not_or] at hnamed hr0 hr1
  obtain ⟨⟨hdv, hdl, hdk⟩, ⟨hvl, hvk⟩, hlk, -⟩ := hnamed
  obtain ⟨h0d, h0v, h0l, h0k⟩ := hr0
  obtain ⟨h1d, h1v, h1l, h1k⟩ := hr1
  have h10 : posRsv p 1 ≠ posRsv p 0 := h01.ne'
  have h0 : posRsv p 0 < 6 := h01.trans h1
  have flipped : ∀ {a b : Nat}, ¬ b = a → decide (a = b) = false := fun h => decide_eq_false (Ne.symm h)
  refine ⟨?_, ?_, ?_, ?_, ?_, ?_⟩ <;>
    simp (disch := first | assumption | exact Fin.isLt _) only [tagWord_flagBit, decide_eq_false, flipped,
      decide_true, Bool.false_and, Bool.true_and, Bool.false_or, Bool.or_false]

/-- Settles O12: the frame and each flag read back from their own bits. -/
theorem tagWordUnpacks : Obligations.TagWordUnpacks := by
  intro p e h
  obtain ⟨hdirty, hvalid, hlrf, hlock, hrsv0, hrsv1⟩ := tagWord_flags h e
  rw [unpackTag, hdirty, hvalid, hlrf, hlock, hrsv0, hrsv1, tagWord_pfn, ofBool_append_ofBool]

/-- Settles O13: the mask clears the six flag bits, the six bits above them are 0 in the packed word, and
there the set goes. -/
theorem writeBackTargetIsSourceFormula : Obligations.WriteBackTargetIsSourceFormula := by
  refine fun p e set => ⟨?_, ?_⟩
  · apply BitVec.eq_of_getLsbD_eq
    intro i hi
    rw [targetOfWord, lineAddr, BitVec.getLsbD_or, BitVec.getLsbD_and, BitVec.getLsbD_not, flagMask_bit i hi,
      BitVec.getLsbD_shiftLeft, BitVec.getLsbD_setWidth, BitVec.getLsbD_append, BitVec.getLsbD_append, tagWord_bit]
    by_cases h6 : i < 6
    · simp [h6]
    · by_cases h12 : i < 12
      · simp [h6, h12, hi, show i - 6 < 6 by omega, show i - 6 < 32 by omega]
      · simp [h6, h12, hi, show ¬ i - 6 < 6 by omega, Nat.sub_sub, BitVec.getLsbD_of_ge set (i - 6) (by omega)]
  · apply BitVec.eq_of_getLsbD_eq
    intro i hi
    rw [BitVec.getLsbD_extractLsb', tagWord_bit, if_neg (by omega), if_pos (by omega), BitVec.getLsbD_zero,
      Bool.and_false]

end Sys2Proof.Machine
end

section
/-! PROOF. The canonical form of the backing store (`spec/10_state.md` section 6, log 5). -/

namespace Sys2Proof.Machine

/-- A canonical memory lists exactly the bytes that differ from an unwritten one. -/
theorem Memory.mem_iff_read {m : Memory} (h : m.wf) (c : Host.Cell) :
    c ∈ m ↔ m.read c.1 = c.2 ∧ c.2 ≠ unlistedByte := by
  obtain ⟨hsorted, hlisted⟩ := h
  constructor
  · intro hc
    have haddrs : (m.map Prod.fst).Nodup := (List.pairwise_map.2 hsorted).imp Nat.ne_of_lt
    obtain ⟨d, hd⟩ := Option.isSome_iff_exists.1
      (List.find?_isSome.2 ⟨c, hc, beq_self_eq_true c.1⟩ : (m.find? fun d => d.1 == c.1).isSome)
    have hdc : d = c := List.inj_on_of_nodup_map haddrs (List.mem_of_find?_eq_some hd) hc
      (beq_iff_eq.1 (List.find?_some hd :))
    exact ⟨by rw [Memory.read, hd, hdc], hlisted c hc⟩
  · rintro ⟨hread, hne⟩
    unfold Memory.read at hread
    split at hread
    · rename_i d hd
      have hmem := List.mem_of_find?_eq_some hd
      have haddr := List.find?_some hd
      simp only [beq_iff_eq] at haddr
      exact (Prod.ext haddr hread : d = c) ▸ hmem
    · exact absurd hread.symm hne

/-- Settles O14: the two list the same entries, each in rising order. -/
theorem canonicalMemoriesAreEqual : Obligations.CanonicalMemoriesAreEqual := by
  intro m m' h h' hread
  have hmem : ∀ c, c ∈ m ↔ c ∈ m' := fun c => by
    rw [Memory.mem_iff_read h, Memory.mem_iff_read h', hread]
  have hnodup : ∀ {l : Memory}, l.wf → l.Nodup := fun hl => hl.1.imp fun hcd he => by simp [he] at hcd
  have hperm : m.Perm m' := (List.perm_ext_iff_of_nodup (hnodup h) (hnodup h')).2 hmem
  exact hperm.eq_of_pairwise (fun c d _ _ hcd hdc => absurd hcd (by omega)) h.1 h'.1

end Sys2Proof.Machine
end

section
/-! PROOF. What a write through the cache shows to the reads behind it, and what it does not (`spec/20_memory.md`
sections 2, 7 and 8). -/

namespace Sys2Proof.Machine

variable {s t u : State} {i : Instr}

/-- Addresses in one line differ in their offset alone. -/
theorem fields_of_same_line {a b : PA} {d : Nat} (hd : (offOf a).toNat + d < 64) (h : b.toNat = a.toNat + d) :
    pfnOf b = pfnOf a ∧ setOf b = setOf a ∧ (offOf b).toNat = (offOf a).toNat + d := by
  have ha := toNat_fields a
  have hb := toNat_fields b
  have hsa := (setOf a).isLt
  have hsb := (setOf b).isLt
  have hob := (offOf b).isLt
  exact ⟨BitVec.eq_of_toNat_eq (by omega), BitVec.eq_of_toNat_eq (by omega), by omega⟩

/-- A lookup sees of the two entries whether they answer (R111). -/
theorem State.findInCache_congr {set : SetIx} {ppf : Pfn}
    (h : ∀ v, (t.tag set v).answers ppf = (u.tag set v).answers ppf) :
    t.findInCache set ppf = u.findInCache set ppf := by
  simp only [State.findInCache, h]

/-- A lookup after `getLine` finds the way it gave, also where both ways answer. -/
theorem State.findInCache_of_getLine {pa : PA} {w : Way} (h : s.getLine pa = .ok (w, u)) :
    u.findInCache (setOf pa) (pfnOf pa) = some w := by
  obtain ⟨hfind, rfl⟩ | ⟨hmiss, -, rfl, rfl⟩ := State.getLine_cases h
  · exact hfind
  · have hfilled : ((s.afterMiss pa).tag (setOf pa) (s.victim (setOf pa))).answers (pfnOf pa) = true := by
      rw [State.tag_afterMiss, if_pos ⟨rfl, rfl⟩, TagEntry.answers_iff]
      exact ⟨rfl, rfl⟩
    obtain hv | hv := way_cases (s.victim (setOf pa))
    · rw [hv] at hfilled ⊢
      rw [State.findInCache, if_pos hfilled]
    · have hother : ¬ ((s.afterMiss pa).tag (setOf pa) 0).answers (pfnOf pa) = true := by
        rw [State.tag_afterMiss, if_neg (by simp [hv]), TagEntry.answers_iff]
        exact fun h0 => hmiss ⟨0, h0⟩
      rw [hv] at hfilled ⊢
      rw [State.findInCache, if_neg hother, if_pos hfilled]

/-- After an operation through the cache its line is found in the way that served it. -/
theorem CacheAnswer.findInCache {w : Way} (ha : CacheAnswer s i w u t) (hs : Served s i w u) :
    t.findInCache (s.setIx i) (pfnOf (s.pa i)) = some w := by
  rw [State.findInCache_congr fun v => ?_, State.findInCache_of_getLine hs.line]
  rw [ha.tag]
  split <;> rfl

/-- Settles O41: the read's bytes lie in the line the write left resident, and the lookup finds that way. -/
theorem cachedReadsSeeCachedWrite : Obligations.CachedReadsSeeCachedWrite := by
  intro s t i j d hwi hci h hwj hpj hcj hpa hcovered
  obtain ⟨w, u, hs, ha⟩ := exec_cached_cases h hci
  have hj := Instr.bytes_pos j
  have hoff := fun k (hk : k < i.bytes) => State.off_lt (s := s) hs.presentable.1 hk
  obtain ⟨hpfn, hset, hoffset⟩ := fields_of_same_line (hoff d (by omega)) hpa
  have hfind : t.findInCache (setOf (t.pa j)) (pfnOf (t.pa j)) = some w := by
    rw [hset, hpfn]
    exact ha.findInCache hs
  obtain ⟨r, hexec, hr⟩ := (exec_read_admitted hwj hpj).2 hcj w t (State.getLine_hit hfind)
  refine ⟨r, hexec, Response.dataOf_congr hr fun k hk => ?_⟩
  have hin := hoff (d + k) (by omega)
  rw [State.setIx, hset, hoffset, Nat.add_assoc, Vector.getElem?_eq_getElem hin, Option.getD_some,
    ha.stored hwi _ hin, if_pos (by omega), Nat.add_sub_cancel_left]

/-- No operation through the cache changes what PM holds of its own line: only another line is written back. -/
theorem exec_cached_read_own_line (h : exec i s = .next t) (hc : s.cached i) {k : Nat} (hk : k < 64) :
    t.pm.read ((lineBase (s.pa i)).toNat + k) = s.pm.read ((lineBase (s.pa i)).toNat + k) := by
  by_cases hhit : s.hits i
  · rw [exec_hit_pm h hc hhit]
  · have hline := s.getElem_line_afterMiss (s.pa i) hhit k hk
    rw [State.line_afterMiss, if_pos ⟨rfl, rfl⟩, Memory.getElem_readLine] at hline
    rw [exec_miss_pm h hc hhit]
    exact hline

/-- Settles O42: the read round the cache shows PM, where the line is as it was. -/
theorem bypassReadsSeeStaleMemory : Obligations.BypassReadsSeeStaleMemory := by
  intro s t i j _ hci h hwj hpj hcj hline
  obtain ⟨r, hexec, hr⟩ := (exec_read_admitted hwj hpj).1 hcj
  refine ⟨r, hexec, Response.dataOf_congr hr fun k hk => ?_⟩
  rw [t.pa_add, hline]
  exact exec_cached_read_own_line h hci (State.off_lt hpj.1 hk)

/-- Settles O43: a peek shows PM, where the line is as it was, and the line lies in the address space. -/
theorem peeksDoNotSeeCachedWrite : Obligations.PeeksDoNotSeeCachedWrite := by
  intro s t i a n _ hc h hlow hhigh
  have hparams : t.params = s.params := (exec_sameInputs h).2.2.2.2.2
  have hbytes : t.pm.readBytes a.toNat n = s.pm.readBytes a.toNat n := by
    refine List.map_congr_left fun k hk => ?_
    have hk := List.mem_range.1 hk
    obtain ⟨d, hd⟩ := Nat.exists_eq_add_of_le hlow
    rw [hd, Nat.add_assoc]
    exact exec_cached_read_own_line h hc (by omega)
  refine ⟨by rw [State.peek, State.peek, hparams, hbytes], fun ⟨hmin, _, _⟩ => ?_⟩
  have hbound := lineAddr_bound (setOf (s.pa i)) (by omega : 12 ≤ s.params.paBits) (s.pfnOf_pa_fits i)
  rw [← lineBase_eq] at hbound
  rw [State.peek, hparams, if_pos (by omega), hbytes]

/-- READ(n) of a line that is found. -/
theorem readRequest_hit {n : Nat} {ctx : Bool} {va : VA} {pfn : Pfn} {w : Way} (h : s.admitted n va pfn)
    (hc : s.checkCache ctx va = true)
    (hfind : s.findInCache (setOf (physAddr s.params pfn va)) (pfnOf (physAddr s.params pfn va)) = some w) :
    readRequest n ctx va pfn s = .ok (s.lineRead (setOf (physAddr s.params pfn va)) w
      (offOf (physAddr s.params pfn va)) n, s) := by
  rw [readRequest_cached h hc, State.getLine_hit hfind]

/-- Settles O44: a hit reads the two arrays alone. -/
theorem readHitsIgnoreMemory : Obligations.ReadHitsIgnoreMemory := by
  intro s i m hw hp hc hhit
  obtain ⟨data, -, -, hexec⟩ := exec_read i hw
  obtain ⟨w, hfind⟩ := State.findInCache_isSome hhit
  refine ⟨data (s.lineRead (s.setIx i) w (offOf (s.pa i)) i.bytes), ?_, ?_⟩
  · rw [hexec, readRequest_hit hp hc hfind]
    rfl
  · rw [hexec, readRequest_hit (s := s.setPm m) hp hc hfind]
    rfl

end Sys2Proof.Machine
end

section
/-! PROOF. What an operation cannot see: the other sets (`spec/20_memory.md` R53) and the positions of the flags
(`spec/30_encoding.md` R89). -/

namespace Sys2Proof.Machine

/-! States that agree on PM, the inputs and one set. -/

/-- The states agree on all that an operation in the set can see. -/
structure State.AgreesOn (s s' : State) (set : SetIx) : Prop where
  pm : s'.pm = s.pm
  inputs : s.sameInputs s'
  ways : ∀ w, s'.tag set w = s.tag set w ∧ s'.line set w = s.line set w

section AgreesOn
variable {s s' t : State} {pa : PA} {set : SetIx} {w : Way}

theorem State.AgreesOn.tag (h : s.AgreesOn s' set) (w : Way) : s'.tag set w = s.tag set w := (h.ways w).1

theorem State.AgreesOn.line (h : s.AgreesOn s' set) (w : Way) : s'.line set w = s.line set w := (h.ways w).2

theorem State.AgreesOn.params (h : s.AgreesOn s' set) : s'.params = s.params := h.inputs.2.2.2.2.2

theorem State.AgreesOn.backed (h : s.AgreesOn s' set) (pfn : Pfn) : s'.backed pfn = s.backed pfn :=
  State.backed_congr h.inputs.2.2.1 pfn

theorem State.AgreesOn.checkCache (h : s.AgreesOn s' set) (ctx : Bool) (va : VA) :
    s'.checkCache ctx va = s.checkCache ctx va :=
  State.checkCache_congr h.inputs.1 h.inputs.2.1 ctx va

theorem State.AgreesOn.admitted (h : s.AgreesOn s' set) {n : Nat} {va : VA} {pfn : Pfn}
    (ha : s.admitted n va pfn) : s'.admitted n va pfn :=
  ⟨ha.1, by rw [h.backed, h.params]; exact ha.2⟩

theorem State.AgreesOn.resident (h : s.AgreesOn s' set) (pfn : Pfn) :
    s'.resident pfn set ↔ s.resident pfn set := by
  simp only [State.resident, h.tag]

theorem State.AgreesOn.findInCache (h : s.AgreesOn s' set) (pfn : Pfn) :
    s'.findInCache set pfn = s.findInCache set pfn :=
  State.findInCache_congr fun v => by rw [h.tag]

theorem State.AgreesOn.victim (h : s.AgreesOn s' set) : s'.victim set = s.victim set := by
  simp only [State.victim, h.tag]

theorem State.AgreesOn.writeBackRefused (h : s.AgreesOn s' set) :
    s'.writeBackRefused set w ↔ s.writeBackRefused set w := by
  simp only [State.writeBackRefused, h.tag, h.backed, h.params]

theorem State.AgreesOn.pmAfterWriteBack (h : s.AgreesOn s' set) :
    s'.pmAfterWriteBack set w = s.pmAfterWriteBack set w := by
  simp only [State.pmAfterWriteBack, h.tag, h.line, h.backed, h.pm]

theorem State.AgreesOn.afterMiss (h : s.AgreesOn s' (setOf pa)) :
    (s.afterMiss pa).AgreesOn (s'.afterMiss pa) (setOf pa) where
  pm := by simp only [State.afterMiss_pm, h.victim, h.pmAfterWriteBack]
  inputs := h.inputs
  ways v := by simp only [State.tag_afterMiss, State.line_afterMiss, h.victim, h.tag, h.line, h.pmAfterWriteBack,
    and_self]

/-- `getLine` gives the same way of both, and leaves them in agreement. -/
theorem State.AgreesOn.getLine (h : s.AgreesOn s' (setOf pa)) (hg : s.getLine pa = .ok (w, t)) :
    ∃ t', s'.getLine pa = .ok (w, t') ∧ t.AgreesOn t' (setOf pa) := by
  obtain ⟨hfind, rfl⟩ | ⟨hmiss, hback, rfl, rfl⟩ := State.getLine_cases hg
  · exact ⟨s', State.getLine_hit ((h.findInCache _).trans hfind), h⟩
  · refine ⟨s'.afterMiss pa, ?_, h.afterMiss⟩
    rw [← h.victim] at hback ⊢
    exact State.getLine_miss (mt (h.resident _).1 hmiss) (mt h.writeBackRefused.1 hback)

theorem State.AgreesOn.respond (h : s.AgreesOn s' set) (r : Response) :
    (s.respond r).AgreesOn (s'.respond r) set :=
  ⟨h.pm, h.inputs, h.ways⟩

theorem State.AgreesOn.lineWrite (h : s.AgreesOn s' set) (o : LineOff) (n : Nat) (v : BitVec (8 * n)) :
    (s.lineWrite set w o n v).AgreesOn (s'.lineWrite set w o n v) set where
  pm := h.pm
  inputs := h.inputs
  ways x := by simp only [State.tag_lineWrite, State.line_lineWrite, h.tag, h.line, and_self]

variable {n : Nat} {ctx : Bool} {va : VA} {pfn : Pfn}

theorem State.AgreesOn.readRequest {x : BitVec (8 * n)} (h : s.AgreesOn s' (setOf (physAddr s.params pfn va)))
    (hr : readRequest n ctx va pfn s = .ok (x, t)) :
    ∃ t', readRequest n ctx va pfn s' = .ok (x, t') ∧ t.AgreesOn t' (setOf (physAddr s.params pfn va)) := by
  obtain ⟨ha, ⟨hc, rfl, rfl⟩ | ⟨hc, w, hg, rfl⟩⟩ := readRequest_cases hr
  · refine ⟨s', ?_, h⟩
    rw [readRequest_bypass (h.admitted ha) ((h.checkCache _ _).trans hc), h.pm, h.params]
  · obtain ⟨t', hg', ht⟩ := h.getLine hg
    refine ⟨t', ?_, ht⟩
    rw [readRequest_cached (h.admitted ha) ((h.checkCache _ _).trans hc), h.params, hg']
    simp only [State.lineRead, ht.line]

theorem State.AgreesOn.writeRequest {v : BitVec (8 * n)} (h : s.AgreesOn s' (setOf (physAddr s.params pfn va)))
    (hr : writeRequest n ctx va pfn v s = .ok t) :
    ∃ t', writeRequest n ctx va pfn v s' = .ok t' ∧ t.AgreesOn t' (setOf (physAddr s.params pfn va)) := by
  obtain ⟨ha, ⟨hc, rfl⟩ | ⟨hc, w, u, hg, rfl⟩⟩ := writeRequest_cases hr
  · refine ⟨_, writeRequest_bypass (h.admitted ha) ((h.checkCache _ _).trans hc), ?_, h.inputs, h.ways⟩
    rw [State.setPm_pm, State.setPm_pm, h.pm, h.params]
  · obtain ⟨u', hg', hu⟩ := h.getLine hg
    refine ⟨_, ?_, hu.lineWrite _ _ _⟩
    rw [writeRequest_cached (h.admitted ha) ((h.checkCache _ _).trans hc), h.params, hg']

end AgreesOn

/-- Settles O45: each procedure keeps two states in agreement and reads the same from both. -/
theorem otherSetsDoNotMatter : Obligations.OtherSetsDoNotMatter := by
  intro s s' t i hpm hinputs hways hexec
  have h : s.AgreesOn s' (s.setIx i) := ⟨hpm, hinputs, hways⟩
  cases hw : i.isWrite with
  | false =>
    obtain ⟨data, -, -, he⟩ := exec_read i hw
    rw [he] at hexec ⊢
    obtain ⟨x, u, hr, rfl⟩ := finishRead_next hexec
    obtain ⟨u', hr', hu⟩ := h.readRequest hr
    exact ⟨u'.respond (data x), by rw [hr', finishRead], rfl, hu.pm, hu.ways⟩
  | true =>
    obtain ⟨v, -, he⟩ := exec_write i hw
    rw [he] at hexec ⊢
    obtain ⟨u, hr, rfl⟩ := finishWrite_next hexec
    obtain ⟨u', hr', hu⟩ := h.writeRequest hr
    exact ⟨u'.respond .done, by rw [hr', finishWrite], rfl, hu.pm, hu.ways⟩

/-! States that differ in the flag positions. -/

/-- The state with other parameters. -/
def State.withParams (s : State) (p : Params) : State := { s with params := p }

/-- The parameters agree on all but the flag positions. -/
structure EqualButPositions (p q : Params) : Prop where
  paBits : p.paBits = q.paBits
  wbPolicy : p.wbPolicy = q.wbPolicy

section withParams
variable {s : State} {p : Params} {n : Nat} {ctx : Bool} {va : VA} {pfn : Pfn}

@[simp] theorem State.backed_withParams (q : Pfn) : (s.withParams p).backed q = s.backed q := rfl

@[simp] theorem State.checkCache_withParams (c : Bool) (a : VA) :
    (s.withParams p).checkCache c a = s.checkCache c a := rfl

theorem physAddr_withParams (h : EqualButPositions p s.params) :
    physAddr (s.withParams p).params pfn va = physAddr s.params pfn va := by
  rw [physAddr, physAddr, clipPfn, clipPfn, show (s.withParams p).params.paBits = s.params.paBits from h.paBits]

/-- The lookup, the write-back and the fill look at the record, not at the packed word. -/
theorem State.getLine_withParams (h : EqualButPositions p s.params) (pa : PA) :
    (s.withParams p).getLine pa = (s.getLine pa).map fun x => (x.1, x.2.withParams p) := by
  by_cases hr : s.resident (pfnOf pa) (setOf pa)
  · obtain ⟨w, hw⟩ := State.findInCache_isSome hr
    rw [State.getLine_hit hw, State.getLine_hit (s := s.withParams p) hw]
    rfl
  · have hr' : ¬ (s.withParams p).resident (pfnOf pa) (setOf pa) := hr
    have hback : (s.withParams p).writeBackRefused (setOf pa) ((s.withParams p).victim (setOf pa)) ↔
        s.writeBackRefused (setOf pa) (s.victim (setOf pa)) :=
      and_congr_right fun _ => and_congr_right fun _ => Eq.congr_left h.wbPolicy
    by_cases hb : s.writeBackRefused (setOf pa) (s.victim (setOf pa))
    · rw [State.getLine_error hr hb, State.getLine_error hr' (hback.2 hb)]
      rfl
    · rw [State.getLine_miss hr hb, State.getLine_miss hr' (mt hback.1 hb)]
      rfl

theorem readRequest_withParams (h : EqualButPositions p s.params) :
    readRequest n ctx va pfn (s.withParams p) =
      (readRequest n ctx va pfn s).map fun x => (x.1, x.2.withParams p) := by
  simp only [readRequest, physAddr_withParams h, State.backed_withParams,
    State.checkCache_withParams, State.getLine_withParams h]
  split_ifs
  · cases s.getLine (physAddr s.params pfn va) <;> rfl
  · rfl
  · rfl
  · rfl

theorem writeRequest_withParams (h : EqualButPositions p s.params) (v : BitVec (8 * n)) :
    writeRequest n ctx va pfn v (s.withParams p) =
      (writeRequest n ctx va pfn v s).map fun t => t.withParams p := by
  simp only [writeRequest, physAddr_withParams h, State.backed_withParams,
    State.checkCache_withParams, State.getLine_withParams h]
  split_ifs
  · cases s.getLine (physAddr s.params pfn va) <;> rfl
  · rfl
  · rfl
  · rfl

/-- An outcome with its next state, where there is one, changed. -/
def mapNext (f : State → State) : Host.Outcome State Fault Refusal → Host.Outcome State Fault Refusal
  | .next t => .next (f t)
  | .fault r => .fault r
  | .refused r => .refused r

/-- An operation does the same under other flag positions. -/
theorem exec_withParams (h : EqualButPositions p s.params) (i : Instr) :
    exec i (s.withParams p) = mapNext (fun t => t.withParams p) (exec i s) := by
  cases hw : i.isWrite with
  | false =>
    obtain ⟨data, -, -, he⟩ := exec_read i hw
    rw [he, he, readRequest_withParams h]
    cases readRequest i.bytes i.staticCtx i.va i.pfn s <;> rfl
  | true =>
    obtain ⟨v, -, he⟩ := exec_write i hw
    rw [he, he, writeRequest_withParams h]
    cases writeRequest i.bytes i.staticCtx i.va i.pfn v s <;> rfl

end withParams

/-- Settles O46: changing the positions commutes with every operation. -/
theorem flagPositionsUnobservable : Obligations.FlagPositionsUnobservable := by
  intro s i p hbits hpolicy
  have h := exec_withParams (s := s) ⟨hbits, hpolicy⟩ i
  exact ⟨fun t ht => h.trans (by rw [ht]; rfl), fun q hq => h.trans (by rw [hq]; rfl)⟩

end Sys2Proof.Machine
end

section
/-! PROOF. Eviction over several requests: EVICT2 (`spec/30_encoding.md` R94) and the three reads of
`spec/70_reset_and_hazards.md` R188. -/

namespace Sys2Proof.Machine

variable {s t u v : State} {i j k : Instr} {set : SetIx} {w : Way} {x q : Pfn} {l : Line}

/-! The next request meets the same parameters, filter and pages. -/

theorem State.sameInputs.pa (h : s.sameInputs t) (j : Instr) : t.pa j = s.pa j := by
  obtain ⟨-, -, -, -, -, hparams⟩ := h
  rw [State.pa, hparams]

theorem State.sameInputs.backed (h : s.sameInputs t) (q : Pfn) : t.backed q = s.backed q :=
  State.backed_congr h.2.2.1 q

theorem State.sameInputs.cached (h : s.sameInputs t) (hc : s.cached j) : t.cached j :=
  (State.checkCache_congr h.1 h.2.1 _ _).trans hc

theorem State.sameInputs.presentable (h : s.sameInputs t) (hp : s.presentable j) : t.presentable j :=
  ⟨hp.1, by rw [h.backed, h.pa]; exact hp.2⟩

theorem State.sameInputs.trans (h : s.sameInputs t) (h' : t.sameInputs u) : s.sameInputs u := by
  simp only [State.sameInputs] at h h' ⊢
  simp only [h, h', and_self]

/-- The operation is served by the cache, from the line of the frame in the set. -/
structure State.Accesses (s : State) (i : Instr) (set : SetIx) (q : Pfn) : Prop where
  cached : s.cached i
  setIx : s.setIx i = set
  pfn : pfnOf (s.pa i) = q

theorem State.Accesses.of_sameInputs (ha : s.Accesses i set q) (h : s.sameInputs t) : t.Accesses i set q :=
  ⟨h.cached ha.cached, by rw [State.setIx, h.pa]; exact ha.setIx, by rw [h.pa]; exact ha.pfn⟩

theorem State.Accesses.hits_iff (ha : s.Accesses i set q) : s.hits i ↔ s.resident q set := by
  rw [State.hits, ha.setIx, ha.pfn]

theorem otherWay_otherWay (w : Way) : otherWay (otherWay w) = w := by
  revert w; decide

/-- The fill of a miss leaves the access's line in the victim way. -/
theorem exec_miss_victim_holds (h : exec i s = .next t) (hc : s.cached i) (hmiss : ¬ s.hits i) :
    (t.tag (s.setIx i) (s.victim (s.setIx i))).valid = true ∧
      (t.tag (s.setIx i) (s.victim (s.setIx i))).pfn = pfnOf (s.pa i) := by
  rw [exec_miss_victim_tag h hc hmiss]
  exact ⟨rfl, rfl⟩

/-- A miss leaves the other way as it was (R118). -/
theorem exec_miss_otherWay (h : exec i s = .next t) (hc : s.cached i) (hmiss : ¬ s.hits i) {v : Way}
    (hv : s.victim (s.setIx i) ≠ v) :
    t.tag (s.setIx i) v = s.tag (s.setIx i) v ∧ t.line (s.setIx i) v = s.line (s.setIx i) v :=
  exec_miss_other h hc hmiss fun h' => hv h'.2

/-- No operation brings in a line other than its own. -/
theorem exec_resident (h : exec i s = .next t) {q : Pfn} (hres : t.resident q set) :
    s.resident q set ∨ q = pfnOf (s.pa i) := by
  obtain ⟨v, hvalid, hpfn⟩ := hres
  obtain htag | ⟨htag, -⟩ | ⟨htag, -⟩ := exec_tag_cases h set v
  · exact .inl ⟨v, htag ▸ hvalid, htag ▸ hpfn⟩
  · rw [htag] at hvalid hpfn
    exact .inl ⟨v, hvalid, hpfn⟩
  · rw [htag] at hpfn
    exact .inr hpfn.symm

/-! One dirty line: held in its way, or displaced and in PM. -/

/-- Way `w` of the set, and no other, holds the line of frame `x`, dirty, with the bytes `l`. -/
structure State.HoldsDirty (s : State) (set : SetIx) (w : Way) (x : Pfn) (l : Line) : Prop where
  valid : (s.tag set w).valid = true
  dirty : (s.tag set w).dirty = true
  pfn : (s.tag set w).pfn = x
  line : s.line set w = l
  alone : ¬ ((s.tag set (otherWay w)).valid = true ∧ (s.tag set (otherWay w)).pfn = x)

/-- The line of frame `x` is not resident, and PM holds its bytes `l`. -/
structure State.Displaced (s : State) (set : SetIx) (x : Pfn) (l : Line) : Prop where
  absent : ¬ s.resident x set
  saved : ∀ k (hk : k < 64), s.pm.read ((lineAddr x set).toNat + k) = l[k]

/-- The way holds the line of the frame. -/
def State.wayHolds (s : State) (set : SetIx) (w : Way) (q : Pfn) : Prop :=
  (s.tag set w).valid = true ∧ (s.tag set w).pfn = q

/-- Of two valid ways with different frames, a dirty one holds its line alone. -/
theorem State.holdsDirty_of_unique
    (hunique : ¬ ((s.tag set 0).valid = true ∧ (s.tag set 1).valid = true ∧ (s.tag set 0).pfn = (s.tag set 1).pfn))
    (hvalid : (s.tag set w).valid = true) (hdirty : (s.tag set w).dirty = true) (hpfn : (s.tag set w).pfn = x) :
    s.HoldsDirty set w x (s.line set w) := by
  refine ⟨hvalid, hdirty, hpfn, rfl, fun ⟨hvalid', hpfn'⟩ => hunique ?_⟩
  obtain rfl | rfl := way_cases w
  · exact ⟨hvalid, hvalid', hpfn.trans hpfn'.symm⟩
  · exact ⟨hvalid', hvalid, hpfn'.trans hpfn.symm⟩

/-- With the line of `x` in one way and of `y` in the other, no third line is resident. -/
theorem State.HoldsDirty.not_resident {y z : Pfn} (h : s.HoldsDirty set w x l)
    (hother : s.wayHolds set (otherWay w) y) (hx : z ≠ x) (hy : z ≠ y) : ¬ s.resident z set := by
  rintro ⟨v, -, hz⟩
  obtain rfl | rfl := eq_or_eq_otherWay w v
  · exact hx (hz.symm.trans h.pfn)
  · exact hy (hz.symm.trans hother.2)

/-- A miss that replaces the way displaces the line to PM. -/
theorem State.HoldsDirty.evict (h : s.HoldsDirty set w x l) (ha : s.Accesses i set q)
    (hexec : exec i s = .next t) (hmiss : ¬ s.hits i) (hbacked : s.backed x = true) (hv : s.victim set = w) :
    t.Displaced set x l := by
  obtain ⟨hc, rfl, rfl⟩ := ha
  subst hv
  have hne : pfnOf (s.pa i) ≠ x := fun he => hmiss ⟨_, h.valid, h.pfn.trans he.symm⟩
  have hback : s.writesBack (s.setIx i) := ⟨h.dirty, h.valid, h.pfn.symm ▸ hbacked⟩
  constructor
  · rintro ⟨v, hvalid, hpfn⟩
    obtain rfl | rfl := eq_or_eq_otherWay (s.victim (s.setIx i)) v
    · exact hne ((exec_miss_victim_holds hexec hc hmiss).2.symm.trans hpfn)
    · rw [(exec_miss_otherWay hexec hc hmiss (otherWay_ne' _)).1] at hvalid hpfn
      exact h.alone ⟨hvalid, hpfn⟩
  · intro k hk
    have hsaved := missWritesBackTheWholeLine s t i hc hmiss hback hexec k hk
    rwa [State.victimTag, h.pfn, h.line] at hsaved

/-- A miss that replaces the other way leaves the line, and its way the next victim. -/
theorem State.HoldsDirty.miss (h : s.HoldsDirty set w x l) (ha : s.Accesses i set q)
    (hexec : exec i s = .next t) (hmiss : ¬ s.hits i) (hv : s.victim set ≠ w) :
    t.HoldsDirty set w x l ∧ t.wayHolds set (otherWay w) q ∧ t.victim set = w := by
  obtain ⟨hc, rfl, rfl⟩ := ha
  have hne : pfnOf (s.pa i) ≠ x := fun he => hmiss ⟨_, h.valid, h.pfn.trans he.symm⟩
  have hw : w = otherWay (s.victim (s.setIx i)) := (eq_or_eq_otherWay _ w).resolve_left hv.symm
  have hother := exec_miss_victim_holds hexec hc hmiss
  obtain ⟨htag, hline⟩ := exec_miss_otherWay hexec hc hmiss hv
  rw [show s.victim (s.setIx i) = otherWay w by rw [hw, otherWay_otherWay]] at hother
  refine ⟨⟨htag ▸ h.valid, htag ▸ h.dirty, htag ▸ h.pfn, hline.trans h.line, fun ⟨_, hpfn⟩ => ?_⟩, hother, ?_⟩
  · exact hne (hother.2.symm.trans hpfn)
  · exact (fillsAlternate s t i hc hmiss hexec).trans hw.symm

/-- A read of another line that hits leaves both ways: the other one holds the line read. -/
theorem State.HoldsDirty.read_hit (h : s.HoldsDirty set w x l) (ha : s.Accesses i set q)
    (hexec : exec i s = .next t) (hread : i.isWrite = false) (hne : q ≠ x) (hhit : s.hits i) :
    t.HoldsDirty set w x l ∧ t.wayHolds set (otherWay w) q := by
  obtain ⟨-, rfl, rfl⟩ := ha
  obtain ⟨-, -, hsame, -⟩ := frameOfTheArrays s t i hexec
  have hways := tag_line_of_arrays (hsame hhit hread) (s.setIx i)
  obtain ⟨v, hvalid, hpfn⟩ := hhit
  obtain rfl : v = otherWay w := (eq_or_eq_otherWay w v).resolve_left fun he =>
    hne (hpfn.symm.trans (he ▸ h.pfn))
  obtain ⟨htag, hline⟩ := hways w
  obtain ⟨htag', -⟩ := hways (otherWay w)
  exact ⟨⟨htag ▸ h.valid, htag ▸ h.dirty, htag ▸ h.pfn, hline.trans h.line, htag' ▸ h.alone⟩,
    htag' ▸ hvalid, htag' ▸ hpfn⟩

/-- A displaced line stays so under every operation through the cache on another line of the set: what it
writes back is another line too. -/
theorem State.Displaced.keep (h : s.Displaced set x l) (ha : s.Accesses i set q)
    (hexec : exec i s = .next t) (hne : q ≠ x) : t.Displaced set x l := by
  obtain ⟨hc, rfl, rfl⟩ := ha
  refine ⟨fun hres => (exec_resident hexec hres).elim h.absent hne.symm, fun k hk => ?_⟩
  rw [← h.saved k hk]
  by_cases hhit : s.hits i
  · rw [exec_hit_pm hexec hc hhit]
  · by_cases hback : s.writesBack (s.setIx i)
    · have hvictim : (s.victimTag (s.setIx i)).pfn ≠ x := fun he => h.absent ⟨_, hback.2.1, he⟩
      have hdisjoint := lineAddr_disjoint (s.setIx i) hvictim
      rw [exec_miss_pm_of_writesBack hexec hc hhit hback, State.victimLine, Memory.read_writeLine_outside]
      omega
    · rw [exec_miss_pm_of_not_writesBack hexec hc hhit hback]

/-- Two misses on other lines displace the line: victims alternate, so that one of the two replaces its way. -/
theorem State.HoldsDirty.two_misses {y : Pfn} (h : s.HoldsDirty set w x l) (hbacked : s.backed x = true)
    (hi : s.Accesses i set q) (hexec : exec i s = .next t) (hmiss : ¬ s.hits i)
    (hj : t.Accesses j set y) (hexec' : exec j t = .next u) (hmiss' : ¬ t.hits j) (hne : y ≠ x) :
    u.Displaced set x l := by
  by_cases hv : s.victim set = w
  · exact (h.evict hi hexec hmiss hbacked hv).keep hj hexec' hne
  · obtain ⟨ht, -, hv'⟩ := h.miss hi hexec hmiss hv
    exact ht.evict hj hexec' hmiss' (((exec_sameInputs hexec).backed x).trans hbacked) hv'

/-- Three reads of three different other lines displace the line: after the first the other way holds the line
read, so that the second and, unless the line is gone by then, the third miss. -/
theorem State.HoldsDirty.three_reads {y z : Pfn} (h : s.HoldsDirty set w x l) (hbacked : s.backed x = true)
    (hi : s.Accesses i set q) (hexec : exec i s = .next t) (hread : i.isWrite = false)
    (hj : t.Accesses j set y) (hexec' : exec j t = .next u)
    (hk : u.Accesses k set z) (hexec'' : exec k u = .next v)
    (hqx : q ≠ x) (hyx : y ≠ x) (hzx : z ≠ x) (hyq : y ≠ q) (hzy : z ≠ y) : v.Displaced set x l := by
  have hbacked' : t.backed x = true := ((exec_sameInputs hexec).backed x).trans hbacked
  have first : t.Displaced set x l ∨ (t.HoldsDirty set w x l ∧ t.wayHolds set (otherWay w) q) := by
    by_cases hhit : s.hits i
    · exact .inr (h.read_hit hi hexec hread hqx hhit)
    · by_cases hv : s.victim set = w
      · exact .inl (h.evict hi hexec hhit hbacked hv)
      · obtain ⟨ht, hother, -⟩ := h.miss hi hexec hhit hv
        exact .inr ⟨ht, hother⟩
  obtain hgone | ⟨ht, hother⟩ := first
  · exact (hgone.keep hj hexec' hyx).keep hk hexec'' hzx
  · have hmiss : ¬ t.hits j := fun hhit => ht.not_resident hother hyx hyq (hj.hits_iff.1 hhit)
    by_cases hv : t.victim set = w
    · exact (ht.evict hj hexec' hmiss hbacked' hv).keep hk hexec'' hzx
    · obtain ⟨hu, hother', hv'⟩ := ht.miss hj hexec' hmiss hv
      have hmiss' : ¬ u.hits k := fun hhit => hu.not_resident hother' hzx hzy (hk.hits_iff.1 hhit)
      exact hu.evict hk hexec'' hmiss' (((exec_sameInputs hexec').backed x).trans hbacked') hv'

/-! The obligations. -/

/-- A byte read is aligned everywhere (R57). -/
theorem aligned_rd8 (ctx : Bool) (va : VA) (pfn : Pfn) : (Instr.rd8 ctx va pfn).aligned = true := by
  simp [Instr.aligned, Instr.bytes, Nat.mod_one]

/-- With every page plain RAM a byte read completes. -/
theorem exec_rd8_completes (hbacked : ∀ q, s.backed q = true) (ctx : Bool) (va : VA) (pfn : Pfn) :
    ∃ t, exec (.rd8 ctx va pfn) s = .next t :=
  exec_completes ⟨aligned_rd8 ctx va pfn, hbacked _⟩ fun ⟨⟨_, _, hpage⟩, _⟩ => by simp [hbacked] at hpage

/-- Settles O48: the three reads complete and displace the line. -/
theorem threeReadsEvictALine : Obligations.ThreeReadsEvictALine := by
  intro s set w x va pfn hvalid hdirty hpfn hunique hbacked hreads hdistinct
  have hacc : ∀ n, s.Accesses (.rd8 false (va n) (pfn n)) set (pfnOf (s.pa (.rd8 false (va n) (pfn n)))) :=
    fun n => ⟨(hreads n).1, (hreads n).2.1, rfl⟩
  obtain ⟨t, ht⟩ := exec_rd8_completes hbacked false (va 0) (pfn 0)
  have hst := exec_sameInputs ht
  obtain ⟨u, hu⟩ := exec_rd8_completes (fun q => (hst.backed q).trans (hbacked q)) false (va 1) (pfn 1)
  have hsu := hst.trans (exec_sameInputs hu)
  obtain ⟨v, hv⟩ := exec_rd8_completes (fun q => (hsu.backed q).trans (hbacked q)) false (va 2) (pfn 2)
  have hdisplaced := (s.holdsDirty_of_unique hunique hvalid hdirty hpfn).three_reads (hbacked x) (hacc 0) ht rfl
    ((hacc 1).of_sameInputs hst) hu ((hacc 2).of_sameInputs hsu) hv (hreads 0).2.2 (hreads 1).2.2 (hreads 2).2.2
    (hdistinct 1 0 (by decide)) (hdistinct 2 1 (by decide))
  exact ⟨t, u, v, ht, hu, hv, hdisplaced.absent, hdisplaced.saved⟩

/-- After two misses on different lines the set holds those two and no other: the second takes the way the first
left. -/
theorem resident_after_two_misses {y : Pfn} (hi : s.Accesses i set q) (hexec : exec i s = .next t)
    (hmiss : ¬ s.hits i) (hj : t.Accesses j set y) (hexec' : exec j t = .next u) (hmiss' : ¬ t.hits j) (z : Pfn) :
    u.resident z set ↔ z = q ∨ z = y := by
  obtain ⟨hc, rfl, rfl⟩ := hi
  obtain ⟨hc', hset, rfl⟩ := hj
  have hfirst := exec_miss_victim_holds hexec hc hmiss
  have hsecond := exec_miss_victim_holds hexec' hc' hmiss'
  have hother := exec_miss_otherWay hexec' hc' hmiss' (v := s.victim (s.setIx i))
  have halternate : t.victim (s.setIx i) = otherWay (s.victim (s.setIx i)) := fillsAlternate s t i hc hmiss hexec
  rw [hset, halternate] at hsecond hother
  rw [← (hother (otherWay_ne _)).1] at hfirst
  constructor
  · rintro ⟨v, -, hz⟩
    obtain rfl | rfl := eq_or_eq_otherWay (s.victim (s.setIx i)) v
    · exact .inl (hz.symm.trans hfirst.2)
    · exact .inr (hz.symm.trans hsecond.2)
  · rintro (rfl | rfl)
    · exact ⟨_, hfirst⟩
    · exact ⟨_, hsecond⟩

/-- Settles O47: both reads miss, so that they end as the two lines of the set and displace both old ones. -/
theorem evictTwoReplacesTheSet : Obligations.EvictTwoReplacesTheSet := by
  intro s vaA vaB pfnA pfnB set hpA hpB hcA hcB hsetA hsetB hne hmissA hmissB hbacked hunique
  have hA : s.Accesses (.rd8 false vaA pfnA) set _ := ⟨hcA, hsetA, rfl⟩
  have hB : s.Accesses (.rd8 false vaB pfnB) set _ := ⟨hcB, hsetB, rfl⟩
  obtain ⟨t, ht⟩ := exec_completes hpA fun ⟨⟨_, _, hpage⟩, _⟩ => by simp [hsetA, hbacked] at hpage
  have hst := exec_sameInputs ht
  have hB' := hB.of_sameInputs hst
  have hmissB' : ¬ t.hits (.rd8 false vaB pfnB) := fun hhit =>
    (exec_resident ht (hB'.hits_iff.1 hhit)).elim (fun hres => hmissB (hB.hits_iff.2 hres)) hne.symm
  have hbacked' : ∀ w, t.backed (t.tag set w).pfn = true := fun w => by
    rw [hst.backed]
    obtain htag | ⟨htag, -⟩ | ⟨htag, -⟩ := exec_tag_cases ht set w
    · rw [htag]; exact hbacked w
    · rw [htag]; exact hbacked w
    · rw [htag]; exact hpA.2
  obtain ⟨u, hu⟩ := exec_completes (hst.presentable hpB) fun ⟨⟨_, _, hpage⟩, _⟩ => by
    simp [hB'.setIx, hbacked'] at hpage
  refine ⟨u, by simp [execAll, evict2, ht, hu], resident_after_two_misses hA ht hmissA hB' hu hmissB', ?_⟩
  intro w hdirty hvalid
  have hneB : pfnOf (s.pa (.rd8 false vaB pfnB)) ≠ (s.tag set w).pfn := fun he =>
    hmissB (hB.hits_iff.2 ⟨w, hvalid, he.symm⟩)
  exact ((s.holdsDirty_of_unique hunique hvalid hdirty rfl).two_misses (hbacked w) hA ht hmissA hB' hu hmissB'
    hneB).saved

end Sys2Proof.Machine
end
